-- ==== Sys2Proof/Word.lean ====
section
/-! DEFINITION. The word types of be8 (00_scope.md R7, R9): 8-bit data, 4-bit addresses and instruction fields. -/

namespace Sys2Proof

/-- An 8-bit register, memory byte or machine byte (R7). -/
abbrev Byte := BitVec 8

/-- A 4-bit field: an opcode or an operand of a machine byte (R9, 30_encoding.md R301). -/
abbrev Nibble := BitVec 4

/-- A 4-bit memory address, 0 to 15 (R7, 20_memory.md R200). -/
abbrev Addr := BitVec 4

end Sys2Proof
end

