-- ==== Sys2Proof/Config.lean ====
section
/-! DEFINITION. The fixed sizes of be8 (00_scope.md R7), the ten mnemonics (R2) and the operand kind of each
(30_encoding.md R302).

The spec's two named parameters (00_scope.md R8) have values and stand where a repair may mend them:
`OPCODE_OF` is `Sys2Proof.opcodeOf` in Sys2Proof/Decode.lean, `bLatchesOperand` is
`Sys2Proof.Machine.bLatchesOperand` in Sys2Proof/Machine/Ops.lean. The decoder, the encoder and the two ALU
operations take them as arguments, so that laws can be stated for every value the spec allows.
The other two rows of R8 (`max_steps`, the image) are arguments of the host operations.

No free value stands here: the spec leaves no result undefined (70_reset_and_hazards.md R700; 93_implementation_defined.md §1). -/

namespace Sys2Proof

/-- The memory has 16 bytes (R7). -/
abbrev memoryBytes : Nat := 16

/-- The largest program the assembler accepts, in instructions (R7, 45_assembler.md R525). -/
abbrev maxInstructions : Nat := 16

/-- The ten mnemonics, in the source's order (R2, 45_assembler.md R500). -/
inductive Mnemonic where
  | nop | lda | add | sub | sta | ldi | out | jmp | jc | hlt
  deriving DecidableEq, Repr

/-- All ten mnemonics in the order of R2. -/
def Mnemonic.all : List Mnemonic := [.nop, .lda, .add, .sub, .sta, .ldi, .out, .jmp, .jc, .hlt]

/-- The three operand kinds (30_encoding.md R302). -/
inductive OperandKind where
  /-- An absolute address, written as a decimal literal or a label. -/
  | addressOrLabel
  /-- A 4-bit literal. -/
  | immediate
  /-- No operand: bits 3-0 are ignored by the engine and written as 0 by the assembler. -/
  | none
  deriving DecidableEq, Repr

/-- The operand kind of each mnemonic (30_encoding.md R302, R303). -/
def Mnemonic.operandKind : Mnemonic → OperandKind
  | .nop | .out | .hlt => .none
  | .ldi => .immediate
  | .lda | .add | .sub | .sta | .jmp | .jc => .addressOrLabel

end Sys2Proof
end

