-- ==== Sys2Proof/Syntax.lean ====
section
/-! DEFINITION. The instructions of be8, one constructor per row of spec/opcode_table.json (00_scope.md R2). -/

namespace Sys2Proof

/-- A decoded instruction. An `addr` is used as it stands, with nothing added, scaled or extended; an `imm` is
zero-extended when it is used (30_encoding.md R302). The None-kind instructions carry no operand, because the
decoder drops their bits 3-0 (R309, R311). -/
inductive Instr where
  | nop
  | lda (addr : Addr)
  | add (addr : Addr)
  | sub (addr : Addr)
  | sta (addr : Addr)
  | out
  | ldi (imm : Nibble)
  | jmp (addr : Addr)
  | jc (addr : Addr)
  | hlt
  deriving DecidableEq, Repr

namespace Instr

/-- The mnemonic of an instruction. -/
def mnemonic : Instr → Mnemonic
  | nop => .nop
  | lda _ => .lda
  | add _ => .add
  | sub _ => .sub
  | sta _ => .sta
  | out => .out
  | ldi _ => .ldi
  | jmp _ => .jmp
  | jc _ => .jc
  | hlt => .hlt

/-- The 4-bit operand of an instruction; 0 where the kind is None ("unused operand bits are 0", 20_memory.md R211). -/
def operand : Instr → Nibble
  | lda k | add k | sub k | sta k | ldi k | jmp k | jc k => k
  | nop | out | hlt => 0

/-- The instruction of a mnemonic with a 4-bit operand field; a None-kind mnemonic drops it (30_encoding.md R311). -/
def ofField : Mnemonic → Nibble → Instr
  | .nop, _ => nop
  | .lda, k => lda k
  | .add, k => add k
  | .sub, k => sub k
  | .sta, k => sta k
  | .out, _ => out
  | .ldi, k => ldi k
  | .jmp, k => jmp k
  | .jc, k => jc k
  | .hlt, _ => hlt

end Instr

end Sys2Proof
end

