-- ==== Sys2Proof/WellFormed.lean ====
section
/-! DEFINITION. The checks a term must pass to be meaningful on be8: a numeric operand fits its mnemonic's field, and an
opcode assignment is one the spec allows. Every term of `Instr` passes the first by its type (`Instr.wf`); the checks
refuse raw operands and assignments that come from outside. -/

namespace Sys2Proof

/-- A numeric operand fits the 4-bit operand field of its kind: 0 to 15 (45_assembler.md R531, R532), and 0 for a
None-kind mnemonic ("unused operand bits are 0", R540). -/
def operandFits : OperandKind → Nat → Bool
  | .none, v => v == 0
  | .immediate, v => v ≤ 15
  | .addressOrLabel, v => v ≤ 15

/-- The check on an instruction: its operand fits its kind. -/
def Instr.wf (i : Instr) : Bool := operandFits i.mnemonic.operandKind i.operand.toNat

/-- An opcode assignment maps different mnemonics to different values (92_eei_decisions.md D19). -/
def assignmentInjective (opc : Mnemonic → Nibble) : Bool :=
  Mnemonic.all.all fun m => Mnemonic.all.all fun n => opc m != opc n || m == n

/-- An opcode assignment keeps the four values that the source's scenario bytes pin (30_encoding.md R303). -/
def assignmentKeepsPinned (opc : Mnemonic → Nibble) : Bool :=
  opc .lda == 0x1#4 && opc .add == 0x2#4 && opc .out == 0x5#4 && opc .hlt == 0xF#4

/-- An opcode assignment maps no mnemonic to 0x9 to 0xE (92_eei_decisions.md D19, 30_encoding.md R305). -/
def assignmentAvoidsUnassigned (opc : Mnemonic → Nibble) : Bool :=
  Mnemonic.all.all fun m => (opc m).toNat < 0x9 || 0xE < (opc m).toNat

/-- The opcode assignments that D19 of 92_eei_decisions.md allows. -/
def assignmentWf (opc : Mnemonic → Nibble) : Bool :=
  assignmentInjective opc && assignmentKeepsPinned opc && assignmentAvoidsUnassigned opc

end Sys2Proof
end

