-- ==== Sys2Proof/Decode.lean ====
section
/-! DEFINITION. The opcode table, the decoder, total on all 256 bytes, and after it the encoder, both read from the one
table (30_encoding.md R303, R310, R311). -/

namespace Sys2Proof

/-- `OPCODE_OF`, the opcode of each mnemonic (30_encoding.md R303): the one table constant that the decoder and the
encoder read. LDA, ADD, OUT and HLT are the source's scenario bytes. NOP, SUB, STA, LDI, JMP and JC are the spec's own
choice (92_eei_decisions.md D1, D19): UNVERIFIED, unsafe for claims about bytes of these six (log entry 1). -/
def opcodeOf : Mnemonic → Nibble
  | .nop => 0x0#4
  | .lda => 0x1#4
  | .add => 0x2#4
  | .sub => 0x3#4
  | .sta => 0x4#4
  | .out => 0x5#4
  | .ldi => 0x6#4
  | .jmp => 0x7#4
  | .jc => 0x8#4
  | .hlt => 0xF#4

/-- The Opcode Table's entry of a mnemonic: its opcode and its operand kind (00_scope.md R3, 45_assembler.md R500). -/
def tableEntry (m : Mnemonic) : Nibble × OperandKind := (opcodeOf m, m.operandKind)

/-- Bits 7-4 of a machine byte (30_encoding.md R301, R304). -/
def opcodeField (b : Byte) : Nibble := b.extractLsb' 4 4

/-- Bits 3-0 of a machine byte (30_encoding.md R301, R304). -/
def operandField (b : Byte) : Nibble := b.extractLsb' 0 4

/-- `(opcode << 4) | operand` (30_encoding.md R301, 45_assembler.md R540). -/
def packByte (opcode operand : Nibble) : Byte := (opcode.zeroExtend 8 <<< 4) ||| operand.zeroExtend 8

/-- What a byte decodes to: an instruction, or the named rejection `unassigned(b)` (30_encoding.md R311). -/
inductive Decoded where
  | instr (i : Instr)
  | unassigned (b : Byte)
  deriving DecidableEq, Repr

/-- The decoder over an opcode assignment: dispatch on bits 7-4 alone (30_encoding.md R309, R311). -/
def decodeWith (opc : Mnemonic → Nibble) (b : Byte) : Decoded :=
  match Mnemonic.all.find? fun m => opc m == opcodeField b with
  | some m => .instr (Instr.ofField m (operandField b))
  | none => .unassigned b

/-- The decoder of be8 (30_encoding.md R311). That the operand bits of a None-kind byte are ignored is the spec's own
choice (R309, 92_eei_decisions.md D3): UNVERIFIED, unsafe for claims about such bytes (log entry 4). -/
def decode (b : Byte) : Decoded := decodeWith opcodeOf b

/-- The encoder over an opcode assignment (45_assembler.md R540). -/
def encodeWith (opc : Mnemonic → Nibble) (i : Instr) : Byte := packByte (opc i.mnemonic) i.operand

/-- The encoder of be8 (30_encoding.md R310, 45_assembler.md R540). -/
def encode (i : Instr) : Byte := encodeWith opcodeOf i

/-- The byte of an instruction whose `nbits` table bits are `w`, with every bit above them 0. Every instruction is one byte
(30_encoding.md R300), so its bits are the byte's bits. -/
def tableByte (nbits w : Nat) : Byte := BitVec.ofNat 8 (w % 2 ^ nbits)

/-- The instruction the decoder reads from a word of the opcode table; no instruction is longer than one byte. -/
def decodeTableWord (nbits w : Nat) : Option Instr :=
  if nbits ≤ 8 then
    match decode (tableByte nbits w) with
    | .instr i => some i
    | .unassigned _ => none
  else none

end Sys2Proof
end

