-- ==== Sys2Proof/Machine/State.lean ====
section
/-! DEFINITION. The state of the be8 CPU Engine (10_state.md R100, R111), the reasons a step can stop, and the state
after reset (70_reset_and_hazards.md R700). -/

namespace Sys2Proof.Machine

/-- A machine image: exactly 16 bytes, any bytes (20_memory.md R211). -/
abbrev Image := Vector Byte memoryBytes

/-- The 16-byte memory as (address, byte) cells in one canonical form: addresses strictly rising and below 16, and no
cell equal to what an unlisted address reads as (`Memory.wf`, `unlistedByte` in Machine/Ops.lean). -/
abbrev Memory := List Host.Cell

/-- The whole state of one engine (10_state.md R100, R103, R111, R112); the field names are the spec's. -/
structure State where
  /-- The 8-bit accumulator (R101). -/
  A : Byte
  /-- The 8-bit secondary register (R102). -/
  B : Byte
  /-- The instruction register: the byte of the last instruction fetched (R105). -/
  IR : Byte
  /-- The program counter, which wraps mod 16 (R104). -/
  PC : Addr
  /-- The output latch, the one device, which has no address (R106). -/
  OUT : Byte
  /-- Halted: set by HLT only, cleared by `load` only (R110). -/
  halted : Bool
  /-- CarryFlag: carry of ADD, borrow of SUB (R107). -/
  carryFlag : Bool
  /-- ZeroFlag: the 8-bit result of ADD or SUB is 0 (R108). -/
  zeroFlag : Bool
  /-- Fault: the spec's sticky IllegalOpcode flag (R111). -/
  fault : Bool
  /-- The sole addressable store, shared by code and data (20_memory.md R200). -/
  memory : Memory
  deriving DecidableEq, Repr

/-- The faults that stop the model without a next state. There is NONE: the engine's one fault, IllegalOpcode, has an
effect in the spec (60_exceptions.md R610), so the step that raises it answers a next state with `State.fault` set, and the
engine raises nothing else (R611). That no constructor stands here says by type that no step faults: safe, since the spec
gives `step` a next state everywhere (R604). -/
inductive Fault where
  deriving DecidableEq, Repr

/-- The operations the model refuses. -/
inductive Refusal where
  /-- Raised by no instruction of this model: every arm of `exec` has a meaning. Kept for an arm rejected by name.
  Safe: a refused run proves nothing. -/
  | notModelled (mnemonic : String)
  /-- Raised by the host operations `step`, `run` and boundary read on an engine that has never been loaded
  (70_reset_and_hazards.md R702), never by an instruction. Safe: a refused run proves nothing. -/
  | notLoaded
  /-- Raised by `hostCallAt` for every host operation, `load` included, at an index that holds no engine; never by an
  instruction. The spec has several engines and no indices (60_exceptions.md R620), so it says nothing of such an index:
  DESIGN CHOICE, safe (a refused operation proves nothing), log entry 16. -/
  | noSuchEngine
  deriving DecidableEq, Repr

/-- The machine right after reset (70_reset_and_hazards.md R700): every register at the value `load` gives it and the pc at
the entry point 0. The memory lists nothing, so it is what `load` leaves for the image of 16 zero bytes; that the image here
is that one is the model's choice: DESIGN CHOICE, unsafe, log entry 5. -/
def State.reset : State where
  A := 0x00#8
  B := 0x00#8
  IR := 0x00#8
  PC := 0#4
  OUT := 0x00#8
  halted := false
  carryFlag := false
  zeroFlag := false
  fault := false
  memory := []

end Sys2Proof.Machine
end

