-- ==== Sys2Proof/Machine/Flags.lean ====
section
/-! DEFINITION. The two ALU results and the flag computations of ADD and SUB (41_arithmetic.md R420 to R422): operands
are unsigned, sums and differences exact, and the result wraps mod 256. -/

namespace Sys2Proof.Machine

/-- The exact sum of two bytes, 0 to 510 (R420). -/
def exactSum (a m : Byte) : Nat := a.toNat + m.toNat

/-- The 8-bit result of ADD: the exact sum mod 256 (R420). -/
def sumByte (a m : Byte) : Byte := BitVec.ofNat 8 (exactSum a m % 256)

/-- CarryFlag of ADD: the exact sum exceeds 255 (R420, 10_state.md R107). -/
def addCarry (a m : Byte) : Bool := decide (exactSum a m > 255)

/-- The exact difference of two bytes, -255 to 255 (R421). -/
def exactDifference (a m : Byte) : Int := (a.toNat : Int) - (m.toNat : Int)

/-- The 8-bit result of SUB: the exact difference mod 256 (R421). -/
def differenceByte (a m : Byte) : Byte := BitVec.ofInt 8 (exactDifference a m % 256)

/-- CarryFlag of SUB: a borrow occurred, the unsigned minuend is less than the subtrahend (R421, 10_state.md R107). -/
def subBorrow (a m : Byte) : Bool := decide (a.toNat < m.toNat)

/-- ZeroFlag of ADD and SUB: the 8-bit result is 0 (R420, R421, 10_state.md R108). -/
def isZero (result : Byte) : Bool := result == 0x00#8

end Sys2Proof.Machine
end

