-- ==== Sys2Proof/Machine/Ops.lean ====
section
/-! DEFINITION. The named operations over memory and registers, the fetch, taking the IllegalOpcode exception, and the
reset `load`. There is no return from an exception: only `load` leaves a faulted engine (60_exceptions.md R615). -/

namespace Sys2Proof.Machine

/-- `bLatchesOperand`: whether ADD and SUB also copy their memory operand into B (00_scope.md R8, 10_state.md R102). The
value false is the spec's own choice (92_eei_decisions.md D4): UNVERIFIED, unsafe for claims about B (log entry 2). -/
def bLatchesOperand : Bool := false

/-- What an address without a cell reads as. Every byte has a value after `load` (70_reset_and_hazards.md R700), so this is
the byte that the canonical form leaves out: DESIGN CHOICE (log entry 5). -/
def unlistedByte : Byte := 0x00#8

/-- The canonical form: addresses strictly rising and inside the memory, no cell equal to an unlisted address's byte. -/
def Memory.wf (m : Memory) : Bool :=
  decide (m.Pairwise fun c d => c.1 < d.1) && m.all fun c => decide (c.1 < memoryBytes) && c.2 != unlistedByte

/-- `MemRead(addr, 1)` (20_memory.md R202). -/
def Memory.read (m : Memory) (addr : Addr) : Byte :=
  match m.find? fun c => c.1 == addr.toNat with
  | some c => c.2
  | none => unlistedByte

/-- The cells with the cell of one key put in its place, an earlier one of that key replaced. -/
def Memory.insertCell (key : Nat) (v : Byte) : Memory → Memory
  | [] => [(key, v)]
  | c :: cs =>
    if key < c.1 then (key, v) :: c :: cs
    else if key = c.1 then (key, v) :: cs
    else c :: Memory.insertCell key v cs

/-- `MemWrite(addr, 1, v)` (20_memory.md R202), in the canonical form. -/
def Memory.write (m : Memory) (addr : Addr) (v : Byte) : Memory :=
  if v = unlistedByte then m.filter fun c => c.1 != addr.toNat else Memory.insertCell addr.toNat v m

namespace State

/-- Read one byte of the memory (20_memory.md R202). -/
def memRead (s : State) (addr : Addr) : Byte := Memory.read s.memory addr

/-- Write one byte of the memory and nothing else (20_memory.md R202). -/
def memWrite (s : State) (addr : Addr) (v : Byte) : State := { s with memory := Memory.write s.memory addr v }

/-- Write A (10_state.md R101). -/
def setA (s : State) (v : Byte) : State := { s with A := v }

/-- ADD and SUB copy their memory operand into B where the parameter says so (10_state.md R102). -/
def latchB (latch : Bool) (s : State) (m : Byte) : State := { s with B := if latch then m else s.B }

/-- Write the output latch (10_state.md R106). -/
def setOUT (s : State) (v : Byte) : State := { s with OUT := v }

/-- Write both flags (10_state.md R109). -/
def setFlags (s : State) (carry zero : Bool) : State := { s with carryFlag := carry, zeroFlag := zero }

/-- Set Halted (10_state.md R110). -/
def setHalted (s : State) : State := { s with halted := true }

/-- Write PC: a jump's target (42_control.md R441). -/
def setPC (s : State) (target : Addr) : State := { s with PC := target }

/-- `PC <- (PC + 1) mod 16` (30_encoding.md R308). -/
def advancePC (s : State) : State := s.setPC (BitVec.ofNat 4 ((s.PC.toNat + 1) % 16))

/-- The engine is in one of its two stop states (60_exceptions.md R621). -/
def stopped (s : State) : Bool := s.halted || s.fault

/-- The byte at PC, which the next fetch reads (30_encoding.md R307). -/
def fetchByte (s : State) : Byte := s.memRead s.PC

/-- The fetch, `IR <- MemRead(PC, 1)` (30_encoding.md R307, 10_state.md R105). PC keeps the instruction's own address. -/
def fetch (s : State) : State := { s with IR := s.fetchByte }

end State

/-- `raise IllegalOpcode(ir)`, the engine's one exception, after the fetch has written IR (60_exceptions.md R610): Fault
becomes true, PC is not advanced, and nothing else changes. There is no vector, no saved pc and no mode (R614). The
behaviour is the spec's own choice (92_eei_decisions.md D2): UNVERIFIED, unsafe where a claim rests on it (log entry 3). -/
def raiseIllegalOpcode (s : State) : State := { s with fault := true }

/-- The byte of an image at an address. -/
def Image.byte (image : Image) (addr : Addr) : Byte := image[addr.toNat]'addr.isLt

/-- The 16 addresses, 0 to 15. -/
def allAddrs : List Addr := (List.range memoryBytes).map (BitVec.ofNat 4)

/-- The memory that holds an image: `for i in 0..15: Memory[i] <- image[i]` (70_reset_and_hazards.md R700). -/
def imageMemory (image : Image) : Memory :=
  allAddrs.foldl (fun m addr => Memory.write m addr (Image.byte image addr)) []

/-- `load(image)`, the engine's reset (70_reset_and_hazards.md R700). It reads nothing of an earlier state: each call
replaces the whole state (R701). -/
def load (image : Image) : State := { State.reset with memory := imageMemory image }

/-- The 16 bytes of a memory as an image, byte i at index i. -/
def memoryImage (m : Memory) : Image := Vector.ofFn fun i => Memory.read m (BitVec.ofFin i)

/-- Put a byte where the next step fetches its instruction: at PC, on an engine that is not stopped, since a stopped engine
fetches nothing (60_exceptions.md R602, R603). It stands for the host's `load` of an image with that byte (log entry 6). -/
def placeFetchByte (s : State) (b : Byte) : State :=
  { s.memWrite s.PC b with halted := false, fault := false }

end Sys2Proof.Machine
end

