-- ==== Sys2Proof/Machine/Operands.lean ====
section
/-! DEFINITION. The operand forms of be8 (30_encoding.md R302): an absolute address, whose operand is the memory byte at
it, and a 4-bit immediate. -/

namespace Sys2Proof.Machine

/-- `zext_8(v)` (00_scope.md R10). -/
def zext8 (v : Nibble) : Byte := v.zeroExtend 8

/-- The memory operand at an absolute address: nothing is added, scaled or extended (20_memory.md R201). -/
def addressOperand (addr : Addr) (s : State) : Byte := s.memRead addr

/-- The value of an immediate operand (30_encoding.md R302). -/
def immediateOperand (imm : Nibble) : Byte := zext8 imm

end Sys2Proof.Machine
end

