-- ==== Sys2Proof/Machine/Arithmetic.lean ====
section
/-! DEFINITION. The arithmetic family: ADD, SUB (41_arithmetic.md). -/

namespace Sys2Proof.Machine

/-- The shared write-back of ADD and SUB, for a given value of `bLatchesOperand` (41_arithmetic.md R420, R421): both flags,
the result, B where the parameter says so, then the PC advance. -/
def aluWriteBack (latch : Bool) (m result : Byte) (carry : Bool) (s : State) : State :=
  (((s.latchB latch m).setFlags carry (isZero result)).setA result).advancePC

/-- ADD (41_arithmetic.md R420). -/
def execAdd (addr : Addr) (s : State) : Host.Outcome State Fault Refusal :=
  let m := addressOperand addr s
  .next (aluWriteBack bLatchesOperand m (sumByte s.A m) (addCarry s.A m) s)

/-- SUB (41_arithmetic.md R421). CarryFlag is the borrow, taken from A before the write. -/
def execSub (addr : Addr) (s : State) : Host.Outcome State Fault Refusal :=
  let m := addressOperand addr s
  .next (aluWriteBack bLatchesOperand m (differenceByte s.A m) (subBorrow s.A m) s)

end Sys2Proof.Machine
end

