-- ==== Sys2Proof/Machine/Control.lean ====
section
/-! DEFINITION. The control family: NOP, JMP, JC, HLT (42_control.md). -/

namespace Sys2Proof.Machine

/-- NOP (42_control.md R440): nothing but the PC advance. -/
def execNop (s : State) : Host.Outcome State Fault Refusal :=
  .next s.advancePC

/-- JMP (42_control.md R441): `PC <- addr`, with no advance. -/
def execJmp (addr : Addr) (s : State) : Host.Outcome State Fault Refusal :=
  .next (s.setPC addr)

/-- JC (42_control.md R442): jump if CarryFlag, else the PC advance. -/
def execJc (addr : Addr) (s : State) : Host.Outcome State Fault Refusal :=
  .next (if s.carryFlag then s.setPC addr else s.advancePC)

/-- HLT (42_control.md R443): `Halted <- true`, and the PC advances too. -/
def execHlt (s : State) : Host.Outcome State Fault Refusal :=
  .next s.setHalted.advancePC

end Sys2Proof.Machine
end

