-- ==== Sys2Proof/Machine/DataTransfer.lean ====
section
/-! DEFINITION. The data transfer family: LDA, STA, LDI, OUT (40_data_transfer.md). Each meaning is the execute phase and
the PC advance of 30_encoding.md R307, on the state the fetch left. -/

namespace Sys2Proof.Machine

/-- LDA (40_data_transfer.md R400): `A <- MemRead(addr, 1)`; no flag is written. -/
def execLda (addr : Addr) (s : State) : Host.Outcome State Fault Refusal :=
  .next (s.setA (addressOperand addr s)).advancePC

/-- STA (40_data_transfer.md R401): `MemWrite(addr, 1, A)`; no flag is written. -/
def execSta (addr : Addr) (s : State) : Host.Outcome State Fault Refusal :=
  .next (s.memWrite addr s.A).advancePC

/-- LDI (40_data_transfer.md R402): `A <- zext_8(imm)`; no flag is written. -/
def execLdi (imm : Nibble) (s : State) : Host.Outcome State Fault Refusal :=
  .next (s.setA (immediateOperand imm)).advancePC

/-- OUT (40_data_transfer.md R403): `OUT <- A`; no flag is written. -/
def execOut (s : State) : Host.Outcome State Fault Refusal :=
  .next (s.setOUT s.A).advancePC

end Sys2Proof.Machine
end

