-- ==== Sys2Proof/Machine/Dispatch.lean ====
section
/-! DEFINITION. The execute phase of a step: one arm per instruction (30_encoding.md R307). It does not
look at Halted and Fault, which the step checks before the fetch (log entry 14). -/

namespace Sys2Proof.Machine

def exec (i : Instr) (s : State) : Host.Outcome State Fault Refusal :=
  match i with
  | .nop => Sys2Proof.Machine.execNop s
  | .lda addr => Sys2Proof.Machine.execLda addr s
  | .add addr => Sys2Proof.Machine.execAdd addr s
  | .sub addr => Sys2Proof.Machine.execSub addr s
  | .sta addr => Sys2Proof.Machine.execSta addr s
  | .out => Sys2Proof.Machine.execOut s
  | .ldi imm => Sys2Proof.Machine.execLdi imm s
  | .jmp addr => Sys2Proof.Machine.execJmp addr s
  | .jc addr => Sys2Proof.Machine.execJc addr s
  | .hlt => Sys2Proof.Machine.execHlt s

end Sys2Proof.Machine
end

