-- ==== Sys2Proof/Machine/Cycle.lean ====
section
/-! DEFINITION. One fetch-decode-execute cycle (30_encoding.md R307). -/

namespace Sys2Proof.Machine

/-- Decode the byte in IR and execute it; an unassigned opcode raises IllegalOpcode before any execute effect
(30_encoding.md R307, 60_exceptions.md R610, R613). -/
def decodeExecute (s : State) : Host.Outcome State Fault Refusal :=
  match decode s.IR with
  | .instr i => exec i s
  | .unassigned _ => .next (raiseIllegalOpcode s)

/-- The cycle: a halted or faulted engine changes nothing (60_exceptions.md R602, R603); any other fetches, decodes and
executes one byte. -/
def cycle (s : State) : Host.Outcome State Fault Refusal :=
  if s.stopped then .next s else decodeExecute s.fetch

end Sys2Proof.Machine
end

