-- ==== Sys2Proof/Machine/Step.lean ====
section
/-! DEFINITION. `step()` (30_encoding.md R307) and the host's way to place the next instruction. -/

namespace Sys2Proof.Machine

/-- `step()`: exactly one fetch-decode-execute cycle, a no-op on a stopped engine (30_encoding.md R307). -/
def step (s : State) : Host.Outcome State Fault Refusal := cycle s

/-- `s` with the instruction of a table word where `step` fetches next (log entry 6). -/
def State.withFetchWord (s : State) (nbits w : Nat) : State := placeFetchByte s (tableByte nbits w)

end Sys2Proof.Machine
end

