-- ==== Sys2Proof/Machine/HostOps.lean ====
section
/-! DEFINITION. The host's operations on an engine: `load`, `step`, `run(max_steps)` and the boundary read
(60_exceptions.md R600), on an engine that may not have been loaded yet (70_reset_and_hazards.md R702), and on one of several
independent engines (60_exceptions.md R620). -/

namespace Sys2Proof.Machine

/-- The outcomes of `run` (60_exceptions.md R601). -/
inductive RunOutcome where
  /-- Normal termination: Halted is true. -/
  | halted
  /-- A forced stop: not success, not a crash. -/
  | stepBudgetExhausted
  /-- The spec's own third outcome: Fault is true (92_eei_decisions.md D2). -/
  | illegalOpcode
  deriving DecidableEq, Repr

/-- What `run` leaves: its outcome, the number of steps it took (60_exceptions.md R605 allows returning it) and the state. -/
structure RunResult where
  outcome : RunOutcome
  steps : Nat
  state : State
  deriving DecidableEq, Repr

/-- The loop of `run` after `n` steps with `left` steps of budget to go: Fault is checked first, then Halted, then the budget
(60_exceptions.md R605, R613). The order is the spec's own choice (92_eei_decisions.md D6): UNVERIFIED (log entry 8). -/
def runFrom (n left : Nat) (s : State) : Host.Outcome RunResult Fault Refusal :=
  if s.fault then .next ⟨.illegalOpcode, n, s⟩
  else if s.halted then .next ⟨.halted, n, s⟩
  else
    match left with
    | 0 => .next ⟨.stepBudgetExhausted, n, s⟩
    | left + 1 =>
      match step s with
      | .next t => runFrom (n + 1) left t
      | .fault r => .fault r
      | .refused r => .refused r

/-- `run(max_steps)` (60_exceptions.md R605). -/
def run (maxSteps : Nat) (s : State) : Host.Outcome RunResult Fault Refusal := runFrom 0 maxSteps s

/-- What the engine boundary exposes (10_state.md R113): everything but IR. `fault` is the spec's addition. -/
structure Boundary where
  A : Byte
  B : Byte
  OUT : Byte
  PC : Addr
  carryFlag : Bool
  zeroFlag : Bool
  halted : Bool
  fault : Bool
  memory : Image
  deriving DecidableEq, Repr

/-- The boundary read (10_state.md R113). -/
def boundary (s : State) : Boundary where
  A := s.A
  B := s.B
  OUT := s.OUT
  PC := s.PC
  carryFlag := s.carryFlag
  zeroFlag := s.zeroFlag
  halted := s.halted
  fault := s.fault
  memory := memoryImage s.memory

/-- An engine instance: it has no state until the first `load` (70_reset_and_hazards.md R702). -/
inductive Engine where
  | unloaded
  | loaded (s : State)
  deriving DecidableEq, Repr

/-- The four host operations, which are the engine's only inputs (60_exceptions.md R600). -/
inductive HostCall where
  | load (image : Image)
  | step
  | run (maxSteps : Nat)
  | readBoundary
  deriving DecidableEq, Repr

/-- What a host operation returns. -/
inductive Reply where
  | done
  | ran (outcome : RunOutcome) (steps : Nat)
  | boundary (b : Boundary)
  deriving DecidableEq, Repr

/-- One host operation on a loaded engine that changes no other agent (60_exceptions.md R600). -/
def callLoaded (c : HostCall) (s : State) : Host.Outcome (Engine × Reply) Fault Refusal :=
  match c with
  | .load image => .next (.loaded (load image), .done)
  | .step =>
    match step s with
    | .next t => .next (.loaded t, .done)
    | .fault r => .fault r
    | .refused r => .refused r
  | .run maxSteps =>
    match run maxSteps s with
    | .next r => .next (.loaded r.state, .ran r.outcome r.steps)
    | .fault r => .fault r
    | .refused r => .refused r
  | .readBoundary => .next (.loaded s, .boundary (boundary s))

/-- One host operation on an engine. `load` is accepted at any time (70_reset_and_hazards.md R701); every other operation is
refused before the first `load` (R702, 92_eei_decisions.md D7; log entry 7). -/
def hostCall (c : HostCall) : Engine → Host.Outcome (Engine × Reply) Fault Refusal
  | .loaded s => callLoaded c s
  | .unloaded =>
    match c with
    | .load image => .next (.loaded (load image), .done)
    | .step | .run _ | .readBoundary => .refused .notLoaded

/-- One host operation on one of several engines, which share nothing (60_exceptions.md R620). On an engine that exists it is
`hostCall`, so `load` is accepted there at any time (70_reset_and_hazards.md R701), before the first `load` too. The spec has
no indices: at an index that holds no engine every operation, `load` included, is refused as `noSuchEngine`. DESIGN CHOICE,
safe, log entry 16. -/
def hostCallAt (j : Nat) (c : HostCall) (engines : List Engine) : Host.Outcome (List Engine × Reply) Fault Refusal :=
  match engines[j]? with
  | none => .refused .noSuchEngine
  | some e =>
    match hostCall c e with
    | .next (e', reply) => .next (engines.set j e', reply)
    | .fault r => .fault r
    | .refused r => .refused r

end Sys2Proof.Machine
end

