-- ==== Sys2Proof/Machine/Assembler.lean ====
section
/-! DEFINITION. The assembler, be8's instruction encoder (45_assembler.md): Stage 1 tokens, Stage 2 parse, Stage 3
resolution and encoding through the decoder's opcode table, and the seven diagnostics. Where the spec decides a point itself
(92_eei_decisions.md D11 to D18) the model follows it: UNVERIFIED, log entries 10 to 12, which say where that is unsafe. -/

namespace Sys2Proof.Machine

/-- A token, or a label name, as its characters. A text is its Unicode characters (45_assembler.md R503; log entry 9). -/
abbrev Token := List Char

/-- The seven error kinds (45_assembler.md R545). -/
inductive ErrorKind where
  | invalidLiteral
  | operandOutOfRange
  | invalidLabelName
  | undefinedLabel
  | duplicateLabel
  | programTooLarge
  | syntaxError
  deriving DecidableEq, Repr

/-- The one diagnostic of a failing assembly: the line, from 1, and the rule violated (45_assembler.md R546). -/
structure Diagnostic where
  line : Nat
  kind : ErrorKind
  deriving DecidableEq, Repr

/-- The intermediate instruction (45_assembler.md R502) with the line it came from. It keeps the mnemonic; its opcode and
operand kind are read from the one table (log entry 13), and its operand stays the source token until Stage 3
(90_conflicts.md C7). -/
structure SourceInstr where
  mnemonic : Mnemonic
  operand : Option Token
  line : Nat
  deriving DecidableEq, Repr

/-- What Stage 2 builds: the instructions in order and the Label table (45_assembler.md R519). -/
structure ParseState where
  instrs : List SourceInstr
  labels : List (Token × Nat)
  deriving DecidableEq, Repr

/-! ### The mapper and the lexical classes -/

/-- The upper-case spelling of each mnemonic (45_assembler.md R500). -/
def mnemonicName : Mnemonic → Token
  | .nop => ['N', 'O', 'P']
  | .lda => ['L', 'D', 'A']
  | .add => ['A', 'D', 'D']
  | .sub => ['S', 'U', 'B']
  | .sta => ['S', 'T', 'A']
  | .ldi => ['L', 'D', 'I']
  | .out => ['O', 'U', 'T']
  | .jmp => ['J', 'M', 'P']
  | .jc => ['J', 'C']
  | .hlt => ['H', 'L', 'T']

/-- ASCII case folding: `a`-`z` to `A`-`Z`, every other character itself (45_assembler.md R501, 92_eei_decisions.md D13). -/
def foldCase (c : Char) : Char := c.toUpper

/-- The mnemonic a token matches, without regard to ASCII case (45_assembler.md R501). -/
def mnemonicOf (t : Token) : Option Mnemonic := Mnemonic.all.find? fun m => t.map foldCase == mnemonicName m

/-- The opcode of an intermediate instruction (45_assembler.md R502). -/
def SourceInstr.opcode (i : SourceInstr) : Nibble := (tableEntry i.mnemonic).1

/-- The operand kind of an intermediate instruction (45_assembler.md R502). -/
def SourceInstr.operandKind (i : SourceInstr) : OperandKind := (tableEntry i.mnemonic).2

/-- An identifier: `[A-Za-z][A-Za-z0-9_]*` over ASCII (45_assembler.md R504). -/
def isIdentifier : Token → Bool
  | [] => false
  | c :: cs => c.isAlpha && cs.all fun d => d.isAlphanum || d == '_'

/-- A decimal literal: a non-empty string of ASCII digits (45_assembler.md R504). -/
def isDecimal (t : Token) : Bool := !t.isEmpty && t.all Char.isDigit

/-- The exact base-10 value of a decimal literal, however long (45_assembler.md R504). -/
def decimalValue (t : Token) : Nat := t.foldl (fun v c => 10 * v + (c.toNat - 48)) 0

/-- A label definition token: longer than 1, its last character `:` (45_assembler.md R504). -/
def isLabelDef (t : Token) : Bool := decide (1 < t.length) && t.getLast? == some ':'

/-- The name a label definition token defines: the token without its final `:` (45_assembler.md R517). -/
def labelName (t : Token) : Token := t.dropLast

/-- A token whose first character is an ASCII digit (45_assembler.md R530). -/
def startsWithDigit : Token → Bool
  | [] => false
  | c :: _ => c.isDigit

/-! ### Stage 1: tokenization -/

/-- Whitespace: space, TAB, VT, FF, CR (45_assembler.md R511, 92_eei_decisions.md D12). -/
def isSpace (c : Char) : Bool := c == ' ' || c == '\t' || c == '\x0b' || c == '\x0c' || c == '\r'

/-- The part of a line before its first `;` (45_assembler.md R510). -/
def stripComment (line : List Char) : List Char := line.takeWhile fun c => c != ';'

/-- The tokens of a line: the maximal runs of non-whitespace characters before the comment (45_assembler.md R511). -/
def lineTokens (line : List Char) : List Token := ((stripComment line).splitOnP isSpace).filter fun t => !t.isEmpty

/-- The tokens of each line with its number, the lines split at LF and numbered from 1 (45_assembler.md R503, R512). -/
def tokenLines (text : List Char) : List (Nat × List Token) :=
  ((text.splitOn '\n').zipIdx 1).map fun l => (l.2, lineTokens l.1)

/-! ### Stage 2: the parse pass -/

/-- Append one intermediate instruction (45_assembler.md R516). -/
def ParseState.addInstr (p : ParseState) (m : Mnemonic) (operand : Option Token) (line : Nat) : ParseState :=
  { p with instrs := p.instrs ++ [⟨m, operand, line⟩] }

/-- Define a label at the current instruction count (45_assembler.md R517). -/
def ParseState.addLabel (p : ParseState) (name : Token) : ParseState :=
  { p with labels := p.labels ++ [(name, p.instrs.length)] }

/-- Stage 2 on the tokens of line `n` (45_assembler.md R515 to R518): a mnemonic, with the token after it as operand whatever
that looks like where its kind asks for one; then a label definition; any other token is a syntax error. -/
def parseLine (n : Nat) : List Token → ParseState → Except Diagnostic ParseState
  | [], p => .ok p
  | t :: rest, p =>
    match mnemonicOf t with
    | some m =>
      match m.operandKind with
      | .none => parseLine n rest (p.addInstr m none n)
      | .immediate | .addressOrLabel =>
        match rest with
        | [] => .error ⟨n, .syntaxError⟩
        | operand :: rest' => parseLine n rest' (p.addInstr m (some operand) n)
    | none =>
      if isLabelDef t then
        if !isIdentifier (labelName t) then .error ⟨n, .invalidLabelName⟩
        else if (p.labels.lookup (labelName t)).isSome then .error ⟨n, .duplicateLabel⟩
        else parseLine n rest (p.addLabel (labelName t))
      else .error ⟨n, .syntaxError⟩

/-- Stage 2 on the lines in order (45_assembler.md R515). -/
def parseLines : List (Nat × List Token) → ParseState → Except Diagnostic ParseState
  | [], p => .ok p
  | l :: rest, p =>
    match parseLine l.1 l.2 p with
    | .ok p' => parseLines rest p'
    | .error d => .error d

/-- Stages 1 and 2 of a text (45_assembler.md R519). -/
def parse (text : List Char) : Except Diagnostic ParseState := parseLines (tokenLines text) ⟨[], []⟩

/-! ### Stage 3: resolution and encoding -/

/-- The number an operand stands for, before the range check (45_assembler.md R530, R531; 0 for the None kind, R540). Stage 2
leaves no instruction without the operand it needs; the last case says what R516 says of a missing one. -/
def operandNumber (labels : List (Token × Nat)) : OperandKind → Option Token → Except ErrorKind Nat
  | .none, _ => .ok 0
  | .immediate, some t => if isDecimal t then .ok (decimalValue t) else .error .invalidLiteral
  | .addressOrLabel, some t =>
    if startsWithDigit t then
      if isDecimal t then .ok (decimalValue t) else .error .invalidLiteral
    else if isIdentifier t then
      match labels.lookup t with
      | some v => .ok v
      | none => .error .undefinedLabel
    else .error .invalidLabelName
  | .immediate, none | .addressOrLabel, none => .error .syntaxError

/-- The operand field of an instruction: the number, if it is 15 or less; it is never truncated (45_assembler.md R531,
R532). -/
def resolveOperand (labels : List (Token × Nat)) (kind : OperandKind) (operand : Option Token) : Except ErrorKind Nibble :=
  match operandNumber labels kind operand with
  | .error e => .error e
  | .ok v => if v > 15 then .error .operandOutOfRange else .ok (BitVec.ofNat 4 v)

/-- 16 bytes of 0x00 (45_assembler.md R540). -/
def zeroImage : Image := Vector.replicate memoryBytes 0x00#8

/-- Stage 3 from the instruction at index `j` on (45_assembler.md R525, R540): the size check first, then the operand, then the
packed byte at address `j`. -/
def encodeInstrs (labels : List (Token × Nat)) : List SourceInstr → Nat → Image → Except Diagnostic Image
  | [], _, image => .ok image
  | i :: rest, j, image =>
    if h : j < memoryBytes then
      match resolveOperand labels i.operandKind i.operand with
      | .error e => .error ⟨i.line, e⟩
      | .ok v => encodeInstrs labels rest (j + 1) (image.set j (packByte i.opcode v) h)
    else .error ⟨i.line, .programTooLarge⟩

/-- `assemble(text)` on the text's characters: an image or one diagnostic (45_assembler.md R547, R548). -/
def assemble (text : List Char) : Except Diagnostic Image :=
  match parse text with
  | .error d => .error d
  | .ok p => encodeInstrs p.labels p.instrs 0 zeroImage

/-- `assemble` of the bytes of a UTF-8 text (45_assembler.md R503); bytes that are no UTF-8 are no text and have no result
(log entry 9). -/
def assembleUtf8 (bytes : ByteArray) : Option (Except Diagnostic Image) :=
  (String.fromUTF8? bytes).map fun text => assemble text.toList

/-- The whole-system flow (70_reset_and_hazards.md R704): assemble, `load`, `run(max_steps)`, read the boundary. -/
def assembleAndRun (text : List Char) (maxSteps : Nat) :
    Except Diagnostic (Host.Outcome (RunOutcome × Boundary) Fault Refusal) :=
  match assemble text with
  | .error d => .error d
  | .ok image =>
    match run maxSteps (load image) with
    | .next r => .ok (.next (r.outcome, boundary r.state))
    | .fault r => .ok (.fault r)
    | .refused r => .ok (.refused r)

end Sys2Proof.Machine
end

