-- ==== Sys2Proof/Safety.lean ====
section
/-! DEFINITION. What counts as a safe run of be8, in the terms the claims use. -/

namespace Sys2Proof.Machine

/-- The invariant of every state the engine reaches from a `load`. -/
structure State.Inv (s : State) : Prop where
  /-- The memory is in its canonical form. -/
  memoryCanonical : Memory.wf s.memory = true
  /-- The two stop states exclude each other (60_exceptions.md R602, R603, R613, R621). -/
  oneStopState : ¬ (s.halted = true ∧ s.fault = true)
  /-- With `bLatchesOperand` false, B holds the 0 that `load` gave it (10_state.md R102). -/
  bStaysZero : bLatchesOperand = false → s.B = 0x00#8
  /-- A faulted engine shows the offending byte in IR and its address in PC (60_exceptions.md R610). -/
  faultRecorded : s.fault = true → decode s.IR = .unassigned s.IR ∧ s.memRead s.PC = s.IR
  /-- A halted engine shows the HLT it executed in IR (10_state.md R105, R110). -/
  haltRecorded : s.halted = true → decode s.IR = .instr .hlt

/-- Every byte of the memory is an instruction's byte, so no fetch can raise IllegalOpcode. -/
def State.AllExecutable (s : State) : Prop := ∀ addr, ∃ i, decode (s.memRead addr) = .instr i

/-- Two states that show a program the same: A, PC, the stop flags, CarryFlag and the memory. They may differ in IR, B, OUT and
ZeroFlag, which no instruction's course depends on (10_state.md R102, R105, R106, R108). -/
def State.SameProgramView (s u : State) : Prop :=
  s.A = u.A ∧ s.PC = u.PC ∧ s.halted = u.halted ∧ s.fault = u.fault ∧ s.carryFlag = u.carryFlag ∧ s.memory = u.memory

/-- A safe run: `run` ends, and not with IllegalOpcode (60_exceptions.md R601). -/
def SafeRun (maxSteps : Nat) (s : State) : Prop :=
  ∃ r, run maxSteps s = .next r ∧ r.outcome ≠ .illegalOpcode

end Sys2Proof.Machine
end

