-- ==== Sys2Proof/Certificates/Slice0/Obligations.lean ====
section
/-! DEFINITION. The statements about be8, each from a rule of the spec. A docstring that names a decision D<n> of
92_eei_decisions.md says that the clause rests on the spec's own choice and not on the source. -/

open Sys2Proof Sys2Proof.Machine

/-! ### What each instruction does: its result, which is also where it completes -/

/-- LDA (40_data_transfer.md R400): the byte `0001 aaaa` is LDA of `aaaa`, and LDA copies the memory byte to A, writes no flag
and not B, and advances PC. -/
def Obligations.LdaLoadsMemoryByte : Prop :=
  ∀ (addr : Addr) (s : State),
    decode (0x1#4 ++ addr) = .instr (.lda addr) ∧
    exec (.lda addr) s = .next { s with A := s.memRead addr, PC := s.PC + 1 }

/-- STA (40_data_transfer.md R401): STA stores A at its address and nowhere else, leaves A and the flags, and advances PC. The
opcode is OPCODE_OF's; its number is `DecidedOpcodeValues`. -/
def Obligations.StaStoresAccumulator : Prop :=
  ∀ (addr : Addr) (s : State),
    decode (packByte (opcodeOf .sta) addr) = .instr (.sta addr) ∧
    ∃ t, exec (.sta addr) s = .next t ∧
      t = { s with memory := t.memory, PC := s.PC + 1 } ∧
      ∀ b : Addr, t.memRead b = if b = addr then s.A else s.memRead b

/-- LDI (40_data_transfer.md R402): A becomes the zero-extended literal, no flag is written, PC advances; a literal over 15
fails at assembly time and is not truncated. The opcode is OPCODE_OF's; its number is `DecidedOpcodeValues`. -/
def Obligations.LdiLoadsImmediate : Prop :=
  (∀ (imm : Nibble) (s : State),
    decode (packByte (opcodeOf .ldi) imm) = .instr (.ldi imm) ∧
    exec (.ldi imm) s = .next { s with A := 0x0#4 ++ imm, PC := s.PC + 1 }) ∧
  ∀ (labels : List (Token × Nat)) (t : Token), isDecimal t = true → 15 < decimalValue t →
    resolveOperand labels Mnemonic.ldi.operandKind (some t) = .error .operandOutOfRange

/-- OUT (40_data_transfer.md R403): the byte 0x50 is OUT, and OUT copies A to the latch, leaves A and the flags, and advances
PC. That other low bits are ignored is `OperandBitsOfNoneKindIgnored`. -/
def Obligations.OutLatchesAccumulator : Prop :=
  decode 0x50#8 = .instr .out ∧
  ∀ s : State, exec .out s = .next { s with OUT := s.A, PC := s.PC + 1 }

/-- ADD (41_arithmetic.md R420): the byte `0010 aaaa` is ADD of `aaaa`; the exact sum mod 256, the carry, the zero flag, B as
the parameter bLatchesOperand says, and the PC advance. The old flags are no input. -/
def Obligations.AddResultAndFlags : Prop :=
  ∀ (addr : Addr) (s : State),
    decode (0x2#4 ++ addr) = .instr (.add addr) ∧
    exec (.add addr) s = .next
      { s with
        A := BitVec.ofNat 8 ((s.A.toNat + (s.memRead addr).toNat) % 256)
        carryFlag := decide (s.A.toNat + (s.memRead addr).toNat > 255)
        zeroFlag := decide ((s.A.toNat + (s.memRead addr).toNat) % 256 = 0)
        B := if bLatchesOperand then s.memRead addr else s.B
        PC := s.PC + 1 }

/-- SUB (41_arithmetic.md R421): the difference mod 256, the borrow, the zero flag, B as the parameter bLatchesOperand says, and
the PC advance. The opcode is OPCODE_OF's; its number is `DecidedOpcodeValues`. -/
def Obligations.SubResultAndFlags : Prop :=
  ∀ (addr : Addr) (s : State),
    decode (packByte (opcodeOf .sub) addr) = .instr (.sub addr) ∧
    exec (.sub addr) s = .next
      { s with
        A := BitVec.ofInt 8 (((s.A.toNat : Int) - (s.memRead addr).toNat) % 256)
        carryFlag := decide (s.A.toNat < (s.memRead addr).toNat)
        zeroFlag := decide (((s.A.toNat : Int) - (s.memRead addr).toNat) % 256 = 0)
        B := if bLatchesOperand then s.memRead addr else s.B
        PC := s.PC + 1 }

/-- NOP (42_control.md R440): nothing but the PC advance, which wraps from 15 to 0. The opcode is OPCODE_OF's; its number is
`DecidedOpcodeValues`. -/
def Obligations.NopOnlyAdvances : Prop :=
  decode (packByte (opcodeOf .nop) 0x0#4) = .instr .nop ∧
  (∀ s : State, exec .nop s = .next { s with PC := s.PC + 1 }) ∧
  ∀ s : State, s.PC = 15#4 → exec .nop s = .next { s with PC := 0#4 }

/-- JMP (42_control.md R441): PC becomes the absolute address, with no advance, and no flag is read or written; an address of
16 or more is an assembly-time error. The opcode is OPCODE_OF's; its number is `DecidedOpcodeValues`. -/
def Obligations.JmpSetsProgramCounter : Prop :=
  (∀ (addr : Addr) (s : State),
    decode (packByte (opcodeOf .jmp) addr) = .instr (.jmp addr) ∧
    exec (.jmp addr) s = .next { s with PC := addr }) ∧
  ∀ (labels : List (Token × Nat)) (o : Option Token) (n : Nat),
    operandNumber labels Mnemonic.jmp.operandKind o = .ok n → 16 ≤ n →
      resolveOperand labels Mnemonic.jmp.operandKind o = .error .operandOutOfRange

/-- JC (42_control.md R442): PC becomes the address if CarryFlag is true beforehand and advances by 1 otherwise; no flag is
written and ZeroFlag is not read; an address of 16 or more is an assembly-time error. The opcode is OPCODE_OF's; its number is
`DecidedOpcodeValues`. -/
def Obligations.JcFollowsCarryFlag : Prop :=
  (∀ (addr : Addr) (s : State),
    decode (packByte (opcodeOf .jc) addr) = .instr (.jc addr) ∧
    exec (.jc addr) s = .next { s with PC := if s.carryFlag then addr else s.PC + 1 }) ∧
  ∀ (labels : List (Token × Nat)) (o : Option Token) (n : Nat),
    operandNumber labels Mnemonic.jc.operandKind o = .ok n → 16 ≤ n →
      resolveOperand labels Mnemonic.jc.operandKind o = .error .operandOutOfRange

/-- HLT (42_control.md R443): the byte 0xF0 is HLT; Halted becomes true and PC advances, every later step changes nothing, and
`run` then returns Halted. That other low bits are ignored is `OperandBitsOfNoneKindIgnored`. -/
def Obligations.HltHaltsAndAdvances : Prop :=
  decode 0xF0#8 = .instr .hlt ∧
  ∀ s : State,
    exec .hlt s = .next { s with halted := true, PC := s.PC + 1 } ∧
    step { s with halted := true, PC := s.PC + 1 } = .next { s with halted := true, PC := s.PC + 1 } ∧
    ∀ n : Nat, s.fault = false →
      run n { s with halted := true, PC := s.PC + 1 } = .next ⟨.halted, 0, { s with halted := true, PC := s.PC + 1 }⟩

/-! ### Flags, registers and frames -/

/-- The integer laws (41_arithmetic.md R422): 8-bit wraparound, unsigned operands, SUB as the two's-complement difference,
overflow is no error, CarryFlag iff the sum overflows or a borrow occurs, ZeroFlag iff the 8-bit result is 0. -/
def Obligations.AluFlagLaw : Prop :=
  ∀ (addr : Addr) (s : State),
    (∃ t, exec (.add addr) s = .next t ∧
      t.A.toNat = (s.A.toNat + (s.memRead addr).toNat) % 256 ∧
      (t.carryFlag = true ↔ BitVec.uaddOverflow s.A (s.memRead addr) = true) ∧
      (t.zeroFlag = true ↔ t.A = 0x00#8)) ∧
    ∃ t, exec (.sub addr) s = .next t ∧
      t.A = s.A + (~~~(s.memRead addr) + 1) ∧
      (t.carryFlag = true ↔ BitVec.usubOverflow s.A (s.memRead addr) = true) ∧
      (t.zeroFlag = true ↔ t.A = 0x00#8)

/-- Both flags are recomputed on every ADD and SUB, whatever they were, and written by no other instruction
(10_state.md R109). -/
def Obligations.FlagsWrittenOnlyByAddAndSub : Prop :=
  (∀ (addr : Addr) (s : State) (c z : Bool),
    exec (.add addr) { s with carryFlag := c, zeroFlag := z } = exec (.add addr) s ∧
    exec (.sub addr) { s with carryFlag := c, zeroFlag := z } = exec (.sub addr) s) ∧
  ∀ (i : Instr) (s t : State), exec i s = .next t → (∀ addr, i ≠ .add addr ∧ i ≠ .sub addr) →
    t.carryFlag = s.carryFlag ∧ t.zeroFlag = s.zeroFlag

/-- A (10_state.md R101): written only by LDA, ADD, SUB and LDI, read only by ADD, SUB, STA and OUT, reset to 0 by `load`, and
named by no instruction field (an address or immediate operand is all an instruction holds). -/
def Obligations.AccumulatorAccess : Prop :=
  (∀ (i : Instr) (s t : State), exec i s = .next t →
    i.mnemonic ∉ [Mnemonic.lda, .add, .sub, .ldi] → t.A = s.A) ∧
  (∀ (i : Instr) (s : State) (v : Byte), i.mnemonic ∉ [Mnemonic.add, .sub, .sta, .out] →
    ∃ t u, exec i s = .next t ∧ exec i { s with A := v } = .next u ∧ { u with A := t.A } = t) ∧
  ∀ image : Image, (load image).A = 0x00#8

/-- OUT (10_state.md R106): written only by the OUT instruction, read by none, without an address (a write of it changes no
memory byte and a write of memory not OUT), reset to 0 by `load`. -/
def Obligations.OutLatchAccess : Prop :=
  (∀ (i : Instr) (s t : State), exec i s = .next t → i ≠ .out → t.OUT = s.OUT) ∧
  (∀ (i : Instr) (s : State) (v : Byte),
    ∃ t u, exec i s = .next t ∧ exec i { s with OUT := v } = .next u ∧ { u with OUT := t.OUT } = t) ∧
  (∀ (s t : State) (addr : Addr), exec .out s = .next t → t.memRead addr = s.memRead addr) ∧
  (∀ (s t : State) (addr : Addr), exec (.sta addr) s = .next t → t.OUT = s.OUT) ∧
  ∀ image : Image, (load image).OUT = 0x00#8

/-- CarryFlag (10_state.md R107): after ADD the 9-bit sum's excess over 255, after SUB the unsigned borrow, read only by JC,
reset to false by `load`. -/
def Obligations.CarryFlagAccess : Prop :=
  (∀ (addr : Addr) (s : State), ∃ t, exec (.add addr) s = .next t ∧
    (t.carryFlag = true ↔ 255 < (s.A.zeroExtend 9 + (s.memRead addr).zeroExtend 9).toNat)) ∧
  (∀ (addr : Addr) (s : State), ∃ t, exec (.sub addr) s = .next t ∧
    (t.carryFlag = true ↔ s.A < s.memRead addr)) ∧
  (∀ (i : Instr) (s : State) (c : Bool), (∀ addr, i ≠ .jc addr) →
    ∃ t u, exec i s = .next t ∧ exec i { s with carryFlag := c } = .next u ∧ { u with carryFlag := t.carryFlag } = t) ∧
  ∀ image : Image, (load image).carryFlag = false

/-- ZeroFlag (10_state.md R108): written by ADD and SUB as true iff their 8-bit result is 0, read by no instruction, visible at
the boundary, reset to false by `load`. -/
def Obligations.ZeroFlagAccess : Prop :=
  (∀ (addr : Addr) (s : State),
    (∃ t, exec (.add addr) s = .next t ∧ (t.zeroFlag = true ↔ t.A = 0x00#8)) ∧
    ∃ t, exec (.sub addr) s = .next t ∧ (t.zeroFlag = true ↔ t.A = 0x00#8)) ∧
  (∀ (i : Instr) (s : State) (z : Bool),
    ∃ t u, exec i s = .next t ∧ exec i { s with zeroFlag := z } = .next u ∧ { u with zeroFlag := t.zeroFlag } = t) ∧
  (∀ s : State, (boundary s).zeroFlag = s.zeroFlag) ∧
  ∀ image : Image, (load image).zeroFlag = false

/-- Halted (10_state.md R110): set by a step only where it executes HLT, cleared by `load` only, a no-op step while true, read
by no instruction. -/
def Obligations.HaltedAccess : Prop :=
  (∀ s t : State, step s = .next t → s.halted = false →
    (t.halted = true ↔ s.fault = false ∧ decode s.fetchByte = .instr .hlt)) ∧
  (∀ (s : State) (c : HostCall) (e : Engine) (r : Reply), s.halted = true → hostCall c (.loaded s) = .next (e, r) →
    (∃ image, c = .load image ∧ e = .loaded (load image) ∧ (load image).halted = false) ∨ e = .loaded s) ∧
  (∀ s : State, s.halted = true → step s = .next s) ∧
  ∀ (i : Instr) (s : State) (h : Bool),
    ∃ t u, exec i s = .next t ∧ exec i { s with halted := h } = .next u ∧ { u with halted := t.halted } = t

/-- Fault (10_state.md R111, 60_exceptions.md R603, the spec's own flag, decision D2): set by a step only where the fetched
opcode is unassigned, cleared by `load` only, a no-op step while true, visible as the outcome of `run` and at the boundary. -/
def Obligations.FaultFlagAccess : Prop :=
  (∀ s t : State, step s = .next t → s.fault = false →
    (t.fault = true ↔ s.halted = false ∧ decode s.fetchByte = .unassigned s.fetchByte)) ∧
  (∀ (s : State) (c : HostCall) (e : Engine) (r : Reply), s.fault = true → hostCall c (.loaded s) = .next (e, r) →
    (∃ image, c = .load image ∧ e = .loaded (load image) ∧ (load image).fault = false) ∨ e = .loaded s) ∧
  (∀ s : State, s.fault = true → step s = .next s) ∧
  (∀ (n : Nat) (s : State), s.fault = true → run n s = .next ⟨.illegalOpcode, 0, s⟩) ∧
  ∀ s : State, (boundary s).fault = s.fault

/-- The frame of every instruction: what it leaves unchanged. That no instruction writes B, ADD and SUB among them, is the
spec's own decision D4 (bLatchesOperand is false; log entry 2). -/
def Obligations.InstructionFrame : Prop :=
  ∀ (i : Instr) (s t : State), exec i s = .next t →
    (i.mnemonic ≠ .sta → ∀ b : Addr, t.memRead b = s.memRead b) ∧
    (i.mnemonic ∉ [Mnemonic.lda, .add, .sub, .ldi] → t.A = s.A) ∧
    t.B = s.B ∧
    (i.mnemonic ∉ [Mnemonic.add, .sub] → t.carryFlag = s.carryFlag ∧ t.zeroFlag = s.zeroFlag) ∧
    (i.mnemonic ≠ .out → t.OUT = s.OUT) ∧
    (i.mnemonic ≠ .hlt → t.halted = s.halted) ∧
    t.IR = s.IR ∧ t.fault = s.fault

/-- The frame of STA: every byte outside the one it stores to reads as before, and so does every register but PC. -/
def Obligations.StaFrame : Prop :=
  ∀ (addr : Addr) (s t : State), exec (.sta addr) s = .next t →
    t.memRead addr = s.A ∧ (∀ b : Addr, b ≠ addr → t.memRead b = s.memRead b) ∧
    t.A = s.A ∧ t.B = s.B ∧ t.IR = s.IR ∧ t.OUT = s.OUT ∧ t.halted = s.halted ∧
    t.carryFlag = s.carryFlag ∧ t.zeroFlag = s.zeroFlag ∧ t.fault = s.fault

/-- PC (10_state.md R104): the fetch reads Memory[PC] and leaves PC at the instruction's own address; every instruction but JMP
and a taken JC advances it mod 16, those two set it to their operand; every value is a legal instruction address, for a step
answers a next state there; `load` sets it to 0. -/
def Obligations.ProgramCounterRule : Prop :=
  (∀ s : State, s.fetch.IR = s.memRead s.PC ∧ s.fetch.PC = s.PC) ∧
  (∀ (i : Instr) (s t : State), exec i s = .next t →
    (∀ addr, i = .jmp addr → t.PC = addr) ∧
    (∀ addr, i = .jc addr → s.carryFlag = true → t.PC = addr) ∧
    ((∀ addr, i ≠ .jmp addr ∧ ¬ (i = .jc addr ∧ s.carryFlag = true)) → t.PC.toNat = (s.PC.toNat + 1) % 16)) ∧
  (∀ (s : State) (p : Addr), ∃ t, step { s with PC := p } = .next t) ∧
  ∀ image : Image, (load image).PC = 0#4

/-! ### The step -/

/-- A step runs the decoded instruction (30_encoding.md R307): where the engine is not stopped and the byte at PC decodes to
`i`, the step writes IR with that byte and is `exec i` of that state. -/
def Obligations.StepRunsDecodedInstruction : Prop :=
  ∀ (s : State) (i : Instr), s.halted = false → s.fault = false → decode (s.memRead s.PC) = .instr i →
    step s = exec i { s with IR := s.memRead s.PC }

/-- A step of a halted engine changes nothing (60_exceptions.md R602). -/
def Obligations.HaltedStepChangesNothing : Prop :=
  ∀ s : State, s.halted = true → step s = .next s

/-- IllegalOpcode (60_exceptions.md R610, 30_encoding.md R305, decision D2): a fetched byte with opcode 0x9 to 0xE sets Fault
with the byte in IR and PC at its address, changes nothing else, and is raised by no instruction. -/
def Obligations.UnassignedOpcodeFaults : Prop :=
  (∀ s : State, s.halted = false → s.fault = false →
    0x9 ≤ (opcodeField (s.memRead s.PC)).toNat → (opcodeField (s.memRead s.PC)).toNat ≤ 0xE →
    step s = .next { s with IR := s.memRead s.PC, fault := true }) ∧
  ∀ (i : Instr) (s t : State), exec i s = .next t → t.fault = s.fault

/-- The step is total and deterministic (60_exceptions.md R604): it answers exactly one next state in every state. -/
def Obligations.StepIsTotal : Prop :=
  ∀ s : State, ∃ t, step s = .next t ∧ ∀ o, step s = o → o = .next t

/-- The two invariants of 10_state.md R114: PC is in 0..15, and Halted, and in the same way Fault, once true stays true through
steps and runs until the next `load`. -/
def Obligations.StopFlagsAreMonotone : Prop :=
  (∀ s : State, s.PC.toNat ≤ 15) ∧
  (∀ s t : State, step s = .next t →
    (s.halted = true → t.halted = true) ∧ (s.fault = true → t.fault = true)) ∧
  ∀ (n : Nat) (s : State) (r : RunResult), run n s = .next r →
    (s.halted = true → r.state.halted = true) ∧ (s.fault = true → r.state.fault = true)

/-- A store is seen by the very next fetch (20_memory.md R209, derived there): after a step that runs STA, the byte at its
address is A, and where the next fetch is from that address the next step puts A into IR. The STA itself completes unchanged
even where it stores to its own address. -/
def Obligations.StoreSeenByNextFetch : Prop :=
  ∀ (s t u : State) (addr : Addr), s.halted = false → s.fault = false → decode (s.memRead s.PC) = .instr (.sta addr) →
    step s = .next t → step t = .next u →
    t.IR = s.memRead s.PC ∧ t.PC = s.PC + 1 ∧ t.memRead addr = s.A ∧ (t.PC = addr → u.IR = s.A)

/-- Every step keeps the engine's invariant: canonical memory, at most one stop state, B at 0 without bLatchesOperand (decision
D4), the offending byte recorded by a fault (decision D2), the HLT recorded by a halt. -/
def Obligations.StepKeepsInvariant : Prop :=
  ∀ s t : State, s.Inv → step s = .next t → t.Inv

/-- The invariant holds after every `load`, and so after reset (log entry 5 for the image of `State.reset`). -/
def Obligations.LoadMeetsInvariant : Prop :=
  (∀ image : Image, (load image).Inv) ∧ State.reset.Inv

/-! ### Encoding -/

/-- Decoder and encoder agree for every instruction and for every opcode assignment that decision D19 allows, be8's own among
them (30_encoding.md R310). -/
def Obligations.DecodeEncodeForEveryAssignment : Prop :=
  (∀ opc : Mnemonic → Nibble, assignmentWf opc = true → ∀ i : Instr, decodeWith opc (encodeWith opc i) = .instr i) ∧
  ∀ i : Instr, decode (encode i) = .instr i

/-- Encoding what a byte decodes to gives the byte back, with 0 in the operand bits of a None-kind byte (30_encoding.md R309,
R310, decision D3). -/
def Obligations.EncodeOfDecodedByte : Prop :=
  ∀ (opc : Mnemonic → Nibble) (b : Byte) (i : Instr), decodeWith opc b = .instr i →
    encodeWith opc i = packByte (opcodeField b) (if i.mnemonic.operandKind = .none then 0x0#4 else operandField b)

/-- Decoding is total (30_encoding.md R311, R305): a byte is unassigned exactly from 0x90 to 0xEF, and every other byte is the
instruction of the mnemonic whose opcode is its high nibble, with its low nibble as operand. -/
def Obligations.DecodeIsTotal : Prop :=
  ∀ b : Byte,
    (decode b = .unassigned b ↔ 0x90 ≤ b.toNat ∧ b.toNat ≤ 0xEF) ∧
    (¬ (0x90 ≤ b.toNat ∧ b.toNat ≤ 0xEF) →
      ∃ m, opcodeOf m = opcodeField b ∧ decode b = .instr (Instr.ofField m (operandField b)))

/-- The source's scenario bytes (30_encoding.md R303): LDA 4, ADD 5, OUT and HLT. -/
def Obligations.ScenarioBytesDecode : Prop :=
  decode 0x14#8 = .instr (.lda 4#4) ∧ decode 0x25#8 = .instr (.add 5#4) ∧
  decode 0x50#8 = .instr .out ∧ decode 0xF0#8 = .instr .hlt

/-- The six opcode values the spec chose itself (30_encoding.md R303, decision D1; log entry 1), as bytes of the spec's own
examples. -/
def Obligations.DecidedOpcodeValues : Prop :=
  decode 0x00#8 = .instr .nop ∧ decode 0x3D#8 = .instr (.sub 13#4) ∧ decode 0x4F#8 = .instr (.sta 15#4) ∧
  decode 0x65#8 = .instr (.ldi 5#4) ∧ decode 0x73#8 = .instr (.jmp 3#4) ∧ decode 0x87#8 = .instr (.jc 7#4)

/-- The operand bits of NOP, OUT and HLT have no effect (30_encoding.md R309, decision D3; log entry 4): a byte with
their opcode is that instruction, whatever its low nibble. -/
def Obligations.OperandBitsOfNoneKindIgnored : Prop :=
  ∀ (m : Mnemonic) (k : Nibble), m.operandKind = .none →
    decode (packByte (opcodeOf m) k) = .instr (Instr.ofField m 0x0#4)

/-! ### Host operations -/

/-- `load` (70_reset_and_hazards.md R700; the Fault clause is decision D2): byte i of the image at address i, A, B, IR, OUT and
PC at 0, Halted, both flags and Fault false. -/
def Obligations.LoadInstallsImageAndResets : Prop :=
  ∀ image : Image,
    (∀ addr : Addr, (load image).memRead addr = image[addr.toNat]'addr.isLt) ∧
    (load image).A = 0x00#8 ∧ (load image).B = 0x00#8 ∧ (load image).IR = 0x00#8 ∧ (load image).OUT = 0x00#8 ∧
    (load image).PC = 0#4 ∧ (load image).halted = false ∧ (load image).carryFlag = false ∧
    (load image).zeroFlag = false ∧ (load image).fault = false

/-- `State.reset` is `load` of the image of 16 zero bytes: the model's choice of image, log entry 5. -/
def Obligations.ResetIsLoadOfZeroImage : Prop :=
  load zeroImage = State.reset

/-- `load` at any time, whether the engine is running, halted, faulted or not yet loaded, replaces the whole state; no other
host operation leaves a halted state (70_reset_and_hazards.md R701). -/
def Obligations.LoadAtAnyTimeReplacesState : Prop :=
  (∀ (e : Engine) (image : Image), hostCall (.load image) e = .next (.loaded (load image), .done)) ∧
  (∀ image : Image, (load image).halted = false) ∧
  ∀ (s : State) (c : HostCall), s.halted = true → (∀ image, c ≠ .load image) →
    ∃ r, hostCall c (.loaded s) = .next (.loaded s, r)

/-- Before the first `load`, `step`, `run` and the boundary read are refused (70_reset_and_hazards.md R702, decision D7), and
after it none is: `step` and `run` then leave the state that the step and the run answer, `run` returns its outcome and count,
and the boundary read returns the boundary and leaves the state (60_exceptions.md R600, R605, 10_state.md R113). -/
def Obligations.RefusedBeforeFirstLoad : Prop :=
  (∀ c : HostCall, (∀ image, c ≠ .load image) → hostCall c .unloaded = .refused .notLoaded) ∧
  (∀ (c : HostCall) (s : State), ∃ t r, hostCall c (.loaded s) = .next (.loaded t, r)) ∧
  (∀ s t : State, step s = .next t → hostCall .step (.loaded s) = .next (.loaded t, .done)) ∧
  (∀ (n : Nat) (s : State) (r : RunResult), run n s = .next r →
    hostCall (.run n) (.loaded s) = .next (.loaded r.state, .ran r.outcome r.steps)) ∧
  ∀ s : State, hostCall .readBoundary (.loaded s) = .next (.loaded s, .boundary (boundary s))

/-- Engine instances share nothing (60_exceptions.md R620): an operation on one is that host operation on it, leaves every other
as it was, and depends on that one alone. That it is refused at an index without an engine is the model's choice, log
entry 16. -/
def Obligations.InstancesShareNothing : Prop :=
  (∀ (j : Nat) (c : HostCall) (es fs : List Engine) (r : Reply), hostCallAt j c es = .next (fs, r) →
    fs.length = es.length ∧ ∀ k, k ≠ j → fs[k]? = es[k]?) ∧
  (∀ (j : Nat) (c : HostCall) (es : List Engine) (e e' : Engine) (r : Reply), es[j]? = some e →
    hostCall c e = .next (e', r) → hostCallAt j c es = .next (es.set j e', r)) ∧
  (∀ (j : Nat) (c : HostCall) (es : List Engine), es.length ≤ j → hostCallAt j c es = .refused .noSuchEngine) ∧
  ∀ (j : Nat) (c : HostCall) (es es' fs : List Engine) (r : Reply), es[j]? = es'[j]? → hostCallAt j c es = .next (fs, r) →
    ∃ fs', hostCallAt j c es' = .next (fs', r) ∧ fs'[j]? = fs[j]?

/-- The boundary (10_state.md R113, Fault by decision D2): it shows every register, flag and stop flag but IR, and byte i of the
memory at index i; with IR it is the whole state of an engine whose memory is in its canonical form. -/
def Obligations.BoundaryShowsAllButIr : Prop :=
  (∀ (s : State) (v : Byte), boundary { s with IR := v } = boundary s) ∧
  (∀ s : State, (boundary s).A = s.A ∧ (boundary s).B = s.B ∧ (boundary s).OUT = s.OUT ∧ (boundary s).PC = s.PC ∧
    (boundary s).carryFlag = s.carryFlag ∧ (boundary s).zeroFlag = s.zeroFlag ∧
    (boundary s).halted = s.halted ∧ (boundary s).fault = s.fault) ∧
  (∀ (s : State) (addr : Addr), (boundary s).memory[addr.toNat]'addr.isLt = s.memRead addr) ∧
  ∀ s u : State, Memory.wf s.memory = true → Memory.wf u.memory = true → boundary s = boundary u → s.IR = u.IR → s = u

/-- `run` always returns (60_exceptions.md R605, decision D6): after at most `max_steps` steps, in the state that that many
steps give, with the budget used up where the outcome is StepBudgetExhausted. -/
def Obligations.RunReturnsWithinBudget : Prop :=
  ∀ (n : Nat) (s : State), ∃ r, run n s = .next r ∧ r.steps ≤ n ∧
    Host.Core.run Sys2Proof.core r.steps s = .next r.state ∧
    (r.outcome = .stepBudgetExhausted → r.steps = n)

/-- What the outcomes of `run` say (60_exceptions.md R601, R605, R613, decisions D2 and D6): IllegalOpcode iff Fault, Halted iff
Halted without Fault, StepBudgetExhausted iff neither; so a halt on the last permitted step is Halted, and a run of a stopped
engine takes no step. -/
def Obligations.RunOutcomeSaysTheStopState : Prop :=
  ∀ (n : Nat) (s : State) (r : RunResult), run n s = .next r →
    (r.outcome = .illegalOpcode ↔ r.state.fault = true) ∧
    (r.outcome = .halted ↔ r.state.fault = false ∧ r.state.halted = true) ∧
    (r.outcome = .stepBudgetExhausted ↔ r.state.fault = false ∧ r.state.halted = false) ∧
    (s.halted = true ∨ s.fault = true ∨ n = 0 → r.steps = 0 ∧ r.state = s)

/-- A run may be cut anywhere (60_exceptions.md R605): a run of `m + n` steps ends as the run of `m` steps where that one ends
before its budget, and otherwise goes on from its state with budget `n`. -/
def Obligations.RunSplitsAnywhere : Prop :=
  ∀ (m n : Nat) (s : State) (r : RunResult), run m s = .next r →
    (r.outcome ≠ .stepBudgetExhausted → run (m + n) s = .next r) ∧
    (r.outcome = .stepBudgetExhausted → ∀ q, run n r.state = .next q →
      run (m + n) s = .next ⟨q.outcome, m + q.steps, q.state⟩)

/-- IR, B, OUT and ZeroFlag never steer a program (10_state.md R102, R105, R106, R108): two engines that agree on the rest run
alike for every budget and still agree on it. -/
def Obligations.HiddenStateNeverSteers : Prop :=
  ∀ (n : Nat) (s u : State), s.SameProgramView u →
    ∃ r q, run n s = .next r ∧ run n u = .next q ∧ r.outcome = q.outcome ∧ r.steps = q.steps ∧
      r.state.SameProgramView q.state

/-- A jump to its own address loops for ever (42_control.md R441, 70_reset_and_hazards.md R713): every run exhausts its budget,
and nothing but IR changes. -/
def Obligations.SelfJumpNeverHalts : Prop :=
  ∀ (n : Nat) (s : State), s.halted = false → s.fault = false → decode (s.memRead s.PC) = .instr (.jmp s.PC) →
    run n s = .next ⟨.stepBudgetExhausted, n, { s with IR := if n = 0 then s.IR else s.memRead s.PC }⟩

/-- Where every byte is an instruction, only a store can end that (90_conflicts.md C6): any other step keeps every byte an
instruction and raises no fault. -/
def Obligations.OnlyStoresMakeIllegalBytes : Prop :=
  ∀ s t : State, s.AllExecutable → s.fault = false → step s = .next t →
    t.fault = false ∧ ((∀ addr, decode (s.memRead s.PC) ≠ .instr (.sta addr)) → t.AllExecutable)

/-- A malformed opcode is unreachable for an assembled image that stores nothing (90_conflicts.md C6): assembled images hold only
instruction bytes, and one without an STA runs safely for every budget. That the padding byte 0x00 is an instruction rests on
the spec's decisions D18 and D1 (log entries 12 and 1), and IllegalOpcode, which a safe run avoids, is its decision D2 (log
entry 3). -/
def Obligations.AssembledStoreFreeImagesRunSafely : Prop :=
  ∀ (text : List Char) (image : Image), assemble text = .ok image →
    (load image).AllExecutable ∧
    ((∀ a k : Addr, decode ((load image).memRead a) ≠ .instr (.sta k)) → ∀ n : Nat, SafeRun n (load image))

/-! ### The assembler -/

/-- Mnemonics match by ASCII case folding and in no other way (45_assembler.md R501, decision D13). -/
def Obligations.MnemonicsMatchCaseFolded : Prop :=
  (∀ (t : Token) (m : Mnemonic), mnemonicOf t = some m ↔ t.map foldCase = mnemonicName m) ∧
  ∀ c : Char, foldCase c = if 'a' ≤ c ∧ c ≤ 'z' then Char.ofNat (c.toNat - 32) else c

/-- Stage 1 ignores what follows a `;` and a CR at the end of a line, so CRLF text has the tokens of LF text
(45_assembler.md R503, R510, decisions D11 and D12). -/
def Obligations.CommentsAndCrIgnored : Prop :=
  ∀ line comment : List Char,
    lineTokens (line ++ ';' :: comment) = lineTokens line ∧ lineTokens (line ++ ['\r']) = lineTokens line

/-- Stage 1's tokens (45_assembler.md R503, R511, R512, decision D12): non-empty, without whitespace and `;`, together all of the
line's other characters before the comment, and maximal: a run without whitespace and `;` is one token, and whitespace before
the comment cuts the line in two. Whitespace is the five characters of R511. The lines are what stands between the LFs,
numbered from 1, blank lines counted. -/
def Obligations.TokensOfALine : Prop :=
  (∀ (line : List Char) (t : Token), t ∈ lineTokens line → t ≠ [] ∧ ∀ c ∈ t, isSpace c = false ∧ c ≠ ';') ∧
  (∀ line : List Char, (lineTokens line).flatten = (line.takeWhile fun c => c != ';').filter fun c => !isSpace c) ∧
  (∀ t : List Char, t ≠ [] → (∀ c ∈ t, isSpace c = false ∧ c ≠ ';') → lineTokens t = [t]) ∧
  (∀ (a b : List Char) (c : Char), ';' ∉ a → isSpace c = true → lineTokens (a ++ c :: b) = lineTokens a ++ lineTokens b) ∧
  (∀ c : Char, isSpace c = true ↔ c.toNat ∈ [0x20, 0x09, 0x0B, 0x0C, 0x0D]) ∧
  ∀ text : List Char, (tokenLines text).map Prod.fst = List.range' 1 (text.count '\n' + 1) ∧
    (tokenLines text).map Prod.snd = (text.splitOn '\n').map lineTokens

/-- Stage 2 on a mnemonic (45_assembler.md R516): it consumes itself and, unless its kind is None, the token after it as operand,
whatever that looks like; a mnemonic that needs an operand and is the last token of its line is a syntax error. -/
def Obligations.ParseOfMnemonic : Prop :=
  ∀ (n : Nat) (t : Token) (m : Mnemonic) (rest : List Token) (p : ParseState), mnemonicOf t = some m →
    (m.operandKind = .none → parseLine n (t :: rest) p =
      parseLine n rest { p with instrs := p.instrs ++ [⟨m, none, n⟩] }) ∧
    (m.operandKind ≠ .none → parseLine n [t] p = .error ⟨n, .syntaxError⟩ ∧
      ∀ o : Token, parseLine n (t :: o :: rest) p =
        parseLine n rest { p with instrs := p.instrs ++ [⟨m, some o, n⟩] })

/-- Stage 2 on a label definition (45_assembler.md R504, R517; the check of the name is decision D14): it is a token of at least
one character and a colon after it, the name is the token without its colon, its value the current instruction count; a bad
name and a second definition are errors. -/
def Obligations.ParseOfLabelDefinition : Prop :=
  (∀ t : Token, isLabelDef t = true ↔ ∃ name, name ≠ [] ∧ t = name ++ [':']) ∧
  ∀ (n : Nat) (name : Token) (rest : List Token) (p : ParseState), name ≠ [] →
    (isIdentifier name = false → parseLine n ((name ++ [':']) :: rest) p = .error ⟨n, .invalidLabelName⟩) ∧
    (isIdentifier name = true → name ∈ p.labels.map Prod.fst →
      parseLine n ((name ++ [':']) :: rest) p = .error ⟨n, .duplicateLabel⟩) ∧
    (isIdentifier name = true → name ∉ p.labels.map Prod.fst →
      parseLine n ((name ++ [':']) :: rest) p =
        parseLine n rest { p with labels := p.labels ++ [(name, p.instrs.length)] })

/-- Stage 2 on any other token (45_assembler.md R518): after the mnemonics and the label definitions, everything is a syntax
error, the spec's four examples among them. -/
def Obligations.ParseOfOtherToken : Prop :=
  (∀ (n : Nat) (t : Token) (rest : List Token) (p : ParseState), mnemonicOf t = none → isLabelDef t = false →
    parseLine n (t :: rest) p = .error ⟨n, .syntaxError⟩) ∧
  (∀ (t : Token) (m : Mnemonic), mnemonicOf t = some m → isLabelDef t = false) ∧
  ∀ t ∈ [[':'], ['5'], ['f', 'o', 'o'], [',']], mnemonicOf t = none ∧ isLabelDef t = false

/-- The label table Stage 2 completes (45_assembler.md R517, R504, decision D14): distinct names, all identifiers, each value an
instruction count; and every instruction has an operand exactly where its kind asks for one (R516). -/
def Obligations.LabelTableIsSound : Prop :=
  ∀ (text : List Char) (p : ParseState), parse text = .ok p →
    (p.labels.map Prod.fst).Nodup ∧
    (∀ l ∈ p.labels, isIdentifier l.1 = true ∧ l.2 ≤ p.instrs.length) ∧
    ∀ i ∈ p.instrs, (i.operand = none ↔ i.operandKind = .none)

/-- The Immediate operand (45_assembler.md R531): not a decimal literal is InvalidLiteral, a value over 15 is OperandOutOfRange,
any other value is the operand field. -/
def Obligations.ImmediateOperandRule : Prop :=
  ∀ (labels : List (Token × Nat)) (t : Token),
    (isDecimal t = false → resolveOperand labels .immediate (some t) = .error .invalidLiteral) ∧
    (isDecimal t = true → 15 < decimalValue t → resolveOperand labels .immediate (some t) = .error .operandOutOfRange) ∧
    (isDecimal t = true → decimalValue t ≤ 15 →
      ∃ v, resolveOperand labels .immediate (some t) = .ok v ∧ v.toNat = decimalValue t)

/-- The Address-or-Label operand (45_assembler.md R504, R530, R532, decisions D14 and D17): classified by its first character,
each error in its order, and no value over 15 accepted. A decimal literal is a non-empty string of ASCII digits and its value
the exact base-10 number; an identifier is a letter and then letters, digits and underscores. -/
def Obligations.AddressOperandRule : Prop :=
  (∀ t : Token, isDecimal t = true ↔ t ≠ [] ∧ ∀ c ∈ t, '0' ≤ c ∧ c ≤ '9') ∧
  decimalValue [] = 0 ∧
  (∀ (t : Token) (c : Char), decimalValue (t ++ [c]) = 10 * decimalValue t + (c.toNat - '0'.toNat)) ∧
  (∀ t : Token, startsWithDigit t = true ↔ ∃ c cs, t = c :: cs ∧ '0' ≤ c ∧ c ≤ '9') ∧
  (∀ t : Token, isIdentifier t = true ↔ ∃ c cs, t = c :: cs ∧ ('A' ≤ c ∧ c ≤ 'Z' ∨ 'a' ≤ c ∧ c ≤ 'z') ∧
    ∀ d ∈ cs, 'A' ≤ d ∧ d ≤ 'Z' ∨ 'a' ≤ d ∧ d ≤ 'z' ∨ '0' ≤ d ∧ d ≤ '9' ∨ d = '_') ∧
  ∀ (labels : List (Token × Nat)) (t : Token),
    (startsWithDigit t = true → isDecimal t = false →
      resolveOperand labels .addressOrLabel (some t) = .error .invalidLiteral) ∧
    (startsWithDigit t = false → isIdentifier t = false →
      resolveOperand labels .addressOrLabel (some t) = .error .invalidLabelName) ∧
    (isIdentifier t = true → labels.lookup t = none →
      resolveOperand labels .addressOrLabel (some t) = .error .undefinedLabel) ∧
    (∀ n : Nat, (isDecimal t = true ∧ n = decimalValue t) ∨ (isIdentifier t = true ∧ labels.lookup t = some n) →
      (15 < n → resolveOperand labels .addressOrLabel (some t) = .error .operandOutOfRange) ∧
      (n ≤ 15 → ∃ v, resolveOperand labels .addressOrLabel (some t) = .ok v ∧ v.toNat = n))

/-- Assembling and decoding back (45_assembler.md R540, R552, 30_encoding.md R310; the padding is decision D18): an assembled
image has at most 16 instructions, byte j packs instruction j's opcode and operand and decodes to that instruction, a label
operand as the address it resolved to, and every later byte is 0x00. -/
def Obligations.AssembledImageDecodesBack : Prop :=
  ∀ (text : List Char) (image : Image), assemble text = .ok image →
    ∃ p, parse text = .ok p ∧ p.instrs.length ≤ 16 ∧
      (∀ (j : Nat) (i : SourceInstr), p.instrs[j]? = some i →
        ∃ (v : Nibble) (b : Byte), operandNumber p.labels i.operandKind i.operand = .ok v.toNat ∧
          image[j]? = some b ∧ b = opcodeOf i.mnemonic ++ v ∧ decode b = .instr (Instr.ofField i.mnemonic v)) ∧
      ∀ j : Nat, p.instrs.length ≤ j → j < 16 → image[j]? = some 0x00#8

/-- A label operand encodes the address of its definition, wherever that stands in the text (45_assembler.md R519, R552): two
assembled texts with one label table encode the same operand of the same mnemonic alike. -/
def Obligations.ForwardReferencesEncodeAlike : Prop :=
  ∀ (text text' : List Char) (image image' : Image) (p p' : ParseState) (j j' : Nat) (i i' : SourceInstr) (t t' : Token),
    assemble text = .ok image → assemble text' = .ok image' → parse text = .ok p → parse text' = .ok p' →
    p.instrs[j]? = some i → p'.instrs[j']? = some i' → i.mnemonic = i'.mnemonic →
    i.operandKind = .addressOrLabel → i.operand = some t → i'.operand = some t' →
    isIdentifier t = true → isIdentifier t' = true → p.labels.lookup t = p'.labels.lookup t' →
      image[j]? = image'[j']? ∧ ∃ v, p.labels.lookup t = some v ∧ v ≤ 15 ∧
        image[j]? = some (opcodeOf i.mnemonic ++ BitVec.ofNat 4 v)

/-- Which error is reported (45_assembler.md R515, R519, R525, R546, R548, decision D16). Stage 2 runs over Stage 1's lines in
order, from no instructions and no labels, and stops at the first line that fails with that line's diagnostic, which carries
its number; it comes before Stage 3. Stage 3 reports the first instruction that fails, the size check of index 16 before its
operand. A program of more than 16 instructions never assembles, and a smaller one whose operands all resolve does. -/
def Obligations.FirstStageThreeFailure : Prop :=
  (∀ (n : Nat) (p : ParseState), parseLine n [] p = .ok p) ∧
  (∀ text : List Char, parse text = (tokenLines text).foldlM (fun p l => parseLine l.1 l.2 p) ⟨[], []⟩) ∧
  (∀ (text : List Char) (front back : List (Nat × List Token)) (l : Nat × List Token) (p : ParseState) (d : Diagnostic),
    tokenLines text = front ++ l :: back → front.foldlM (fun p l => parseLine l.1 l.2 p) ⟨[], []⟩ = .ok p →
      parseLine l.1 l.2 p = .error d → parse text = .error d ∧ d.line = l.1) ∧
  (∀ (text : List Char) (d : Diagnostic), parse text = .error d → assemble text = .error d) ∧
  ∀ (text : List Char) (p : ParseState), parse text = .ok p →
    (∀ (front back : List SourceInstr) (i : SourceInstr), p.instrs = front ++ i :: back →
      (∀ k ∈ front, ∃ v, resolveOperand p.labels k.operandKind k.operand = .ok v) →
      (front.length = 16 → assemble text = .error ⟨i.line, .programTooLarge⟩) ∧
      (front.length < 16 → ∀ e, resolveOperand p.labels i.operandKind i.operand = .error e →
        assemble text = .error ⟨i.line, e⟩)) ∧
    (16 < p.instrs.length → ∃ d, assemble text = .error d) ∧
    (p.instrs.length ≤ 16 → (∀ i ∈ p.instrs, ∃ v, resolveOperand p.labels i.operandKind i.operand = .ok v) →
      ∃ image, assemble text = .ok image)
end

