-- ==== Sys2Proof/Laws/Decode.lean ====
section
/-! SUPPORT. The small laws of the opcode table, the two fields of a machine byte and the instruction's parts. -/

namespace Sys2Proof

theorem Mnemonic.mem_all (m : Mnemonic) : m ∈ Mnemonic.all := by
  cases m <;> decide

@[simp] theorem opcodeField_packByte (op k : Nibble) : opcodeField (packByte op k) = op := by
  revert op k
  decide

@[simp] theorem operandField_packByte (op k : Nibble) : operandField (packByte op k) = k := by
  revert op k
  decide

/-- A machine byte is its two fields (30_encoding.md R301). -/
@[simp] theorem packByte_fields (b : Byte) : packByte (opcodeField b) (operandField b) = b := by
  revert b
  decide

/-- Packing is concatenation, opcode first (00_scope.md R10). -/
theorem packByte_eq_append (op k : Nibble) : packByte op k = op ++ k := by
  revert op k
  decide

@[simp] theorem Instr.ofField_mnemonic_operand (i : Instr) : Instr.ofField i.mnemonic i.operand = i := by
  cases i <;> rfl

@[simp] theorem Instr.mnemonic_ofField (m : Mnemonic) (k : Nibble) : (Instr.ofField m k).mnemonic = m := by
  cases m <;> rfl

theorem Instr.operand_ofField (m : Mnemonic) (k : Nibble) :
    (Instr.ofField m k).operand = if m.operandKind = .none then 0 else k := by
  cases m <;> rfl

/-- Every term of `Instr` is well-formed, by the types of its operands. -/
theorem Instr.wf_all (i : Instr) : i.wf = true := by
  have fits : ∀ k : Nibble, k.toNat ≤ 15 := fun k => Nat.le_of_lt_succ k.isLt
  cases i <;> simp [Instr.wf, Instr.mnemonic, Mnemonic.operandKind, Instr.operand, operandFits, fits]

/-- What the check `assignmentInjective` says. -/
theorem assignmentInjective_iff (opc : Mnemonic → Nibble) :
    assignmentInjective opc = true ↔ Function.Injective opc := by
  simp only [assignmentInjective, List.all_eq_true, Mnemonic.mem_all, true_implies, Bool.or_eq_true, bne_iff_ne,
    beq_iff_eq]
  constructor
  · intro h m n heq
    exact (h m n).resolve_left fun hne => hne heq
  · intro h m n
    by_cases heq : opc m = opc n
    · exact Or.inr (h heq)
    · exact Or.inl heq

theorem opcodeOf_wf : assignmentWf opcodeOf = true := by decide

/-- What the decoder answers when it finds a mnemonic: one whose opcode is the byte's opcode field. -/
theorem decodeWith_eq_instr {opc : Mnemonic → Nibble} {b : Byte} {i : Instr} (h : decodeWith opc b = .instr i) :
    ∃ m, opc m = opcodeField b ∧ i = Instr.ofField m (operandField b) := by
  unfold decodeWith at h
  split at h
  · rename_i m hm
    exact ⟨m, by simpa using List.find?_some hm, (Decoded.instr.inj h).symm⟩
  · cases h

/-- What the decoder answers when it finds none: every mnemonic's opcode differs from the byte's opcode field. -/
theorem decodeWith_eq_unassigned {opc : Mnemonic → Nibble} {b c : Byte} (h : decodeWith opc b = .unassigned c) :
    c = b ∧ ∀ m, opc m ≠ opcodeField b := by
  unfold decodeWith at h
  split at h
  · cases h
  · rename_i hm
    refine ⟨(Decoded.unassigned.inj h).symm, fun m => ?_⟩
    simpa using List.find?_eq_none.1 hm m m.mem_all

end Sys2Proof
end

