-- ==== Sys2Proof/Laws/Assembler.lean ====
section
/-! SUPPORT. The small laws of the assembler: what one token does to the parse, and the one induction over Stage 2. -/

namespace Sys2Proof.Machine

@[simp] theorem addInstr_instrs (p : ParseState) (m : Mnemonic) (o : Option Token) (n : Nat) :
    (p.addInstr m o n).instrs = p.instrs ++ [⟨m, o, n⟩] := rfl

@[simp] theorem addInstr_labels (p : ParseState) (m : Mnemonic) (o : Option Token) (n : Nat) :
    (p.addInstr m o n).labels = p.labels := rfl

@[simp] theorem addLabel_instrs (p : ParseState) (name : Token) : (p.addLabel name).instrs = p.instrs := rfl

@[simp] theorem addLabel_labels (p : ParseState) (name : Token) :
    (p.addLabel name).labels = p.labels ++ [(name, p.instrs.length)] := rfl

/-- The mnemonic a token matches spells it, case folded. -/
theorem foldCase_of_mnemonicOf {t : Token} {m : Mnemonic} (h : mnemonicOf t = some m) :
    t.map foldCase = mnemonicName m := by
  simpa using List.find?_some h

/-- The operand of every instruction Stage 2 appends: present exactly where its kind asks for one. -/
def OperandPresent (i : SourceInstr) : Prop := i.operand.isSome = (i.mnemonic.operandKind != .none)

/-- A property kept by appending an instruction with the operand its kind asks for, and by defining a new label with an
identifier's name, holds after Stage 2 has scanned a line. -/
theorem parseLine_induct {P : ParseState → Prop}
    (hinstr : ∀ p m o n, P p → OperandPresent ⟨m, o, n⟩ → P (p.addInstr m o n))
    (hlabel : ∀ p name, P p → isIdentifier name = true → p.labels.lookup name = none → P (p.addLabel name))
    (n : Nat) (ts : List Token) (p q : ParseState) (hp : P p) (h : parseLine n ts p = .ok q) : P q := by
  induction ts, p using parseLine.induct n with
  | case1 p => simpa [parseLine] using (Except.ok.inj h) ▸ hp
  | case2 t rest p m hm hk ih =>
    rw [parseLine.eq_def] at h
    simp only [hm, hk] at h
    exact ih (hinstr _ _ _ _ hp (by simp [OperandPresent, hk])) h
  | case3 t p m hm hk =>
    rw [parseLine.eq_def] at h
    simp [hm, hk] at h
  | case4 t p m hm hk o rest ih =>
    rw [parseLine.eq_def] at h
    simp only [hm, hk] at h
    exact ih (hinstr _ _ _ _ hp (by simp [OperandPresent, hk])) h
  | case5 t p m hm hk =>
    rw [parseLine.eq_def] at h
    simp [hm, hk] at h
  | case6 t p m hm hk o rest ih =>
    rw [parseLine.eq_def] at h
    simp only [hm, hk] at h
    exact ih (hinstr _ _ _ _ hp (by simp [OperandPresent, hk])) h
  | case7 t rest p hm hl hi =>
    rw [parseLine.eq_def] at h
    simp [hm, hl, hi] at h
  | case8 t rest p hm hl hi hd =>
    rw [parseLine.eq_def] at h
    simp [hm, hl, hi, hd] at h
  | case9 t rest p hm hl hi hd ih =>
    rw [parseLine.eq_def] at h
    simp only [hm, hl, hi, hd, if_true] at h
    exact ih (hlabel _ _ hp (by simpa using hi) (Option.not_isSome_iff_eq_none.1 hd)) (by simpa using h)
  | case10 t rest p hm hl =>
    rw [parseLine.eq_def] at h
    simp [hm, hl] at h

/-- The same over the lines, and so over `parse`. -/
theorem parseLines_induct {P : ParseState → Prop}
    (hinstr : ∀ p m o n, P p → OperandPresent ⟨m, o, n⟩ → P (p.addInstr m o n))
    (hlabel : ∀ p name, P p → isIdentifier name = true → p.labels.lookup name = none → P (p.addLabel name))
    (ls : List (Nat × List Token)) (p q : ParseState) (hp : P p) (h : parseLines ls p = .ok q) : P q := by
  induction ls generalizing p with
  | nil => exact (Except.ok.inj h) ▸ hp
  | cons l rest ih =>
    unfold parseLines at h
    split at h
    · rename_i p' hl
      exact ih p' (parseLine_induct hinstr hlabel l.1 l.2 p p' hp hl) h
    · cases h

end Sys2Proof.Machine
end

