-- ==== Sys2Proof/Laws/State.lean ====
section
/-! SUPPORT. What each state update does to each field, one lemma per field per update, so that no later proof unfolds a
record update. -/

namespace Sys2Proof.Machine

namespace State

@[simp] theorem memWrite_A (s : State) (addr : Addr) (v : Byte) : (s.memWrite addr v).A = s.A := rfl
@[simp] theorem memWrite_B (s : State) (addr : Addr) (v : Byte) : (s.memWrite addr v).B = s.B := rfl
@[simp] theorem memWrite_IR (s : State) (addr : Addr) (v : Byte) : (s.memWrite addr v).IR = s.IR := rfl
@[simp] theorem memWrite_PC (s : State) (addr : Addr) (v : Byte) : (s.memWrite addr v).PC = s.PC := rfl
@[simp] theorem memWrite_OUT (s : State) (addr : Addr) (v : Byte) : (s.memWrite addr v).OUT = s.OUT := rfl
@[simp] theorem memWrite_halted (s : State) (addr : Addr) (v : Byte) : (s.memWrite addr v).halted = s.halted := rfl
@[simp] theorem memWrite_carryFlag (s : State) (addr : Addr) (v : Byte) : (s.memWrite addr v).carryFlag = s.carryFlag := rfl
@[simp] theorem memWrite_zeroFlag (s : State) (addr : Addr) (v : Byte) : (s.memWrite addr v).zeroFlag = s.zeroFlag := rfl
@[simp] theorem memWrite_fault (s : State) (addr : Addr) (v : Byte) : (s.memWrite addr v).fault = s.fault := rfl
@[simp] theorem memWrite_memory (s : State) (addr : Addr) (v : Byte) : (s.memWrite addr v).memory = Memory.write s.memory addr v := rfl

@[simp] theorem setA_A (s : State) (v : Byte) : (s.setA v).A = v := rfl
@[simp] theorem setA_B (s : State) (v : Byte) : (s.setA v).B = s.B := rfl
@[simp] theorem setA_IR (s : State) (v : Byte) : (s.setA v).IR = s.IR := rfl
@[simp] theorem setA_PC (s : State) (v : Byte) : (s.setA v).PC = s.PC := rfl
@[simp] theorem setA_OUT (s : State) (v : Byte) : (s.setA v).OUT = s.OUT := rfl
@[simp] theorem setA_halted (s : State) (v : Byte) : (s.setA v).halted = s.halted := rfl
@[simp] theorem setA_carryFlag (s : State) (v : Byte) : (s.setA v).carryFlag = s.carryFlag := rfl
@[simp] theorem setA_zeroFlag (s : State) (v : Byte) : (s.setA v).zeroFlag = s.zeroFlag := rfl
@[simp] theorem setA_fault (s : State) (v : Byte) : (s.setA v).fault = s.fault := rfl
@[simp] theorem setA_memory (s : State) (v : Byte) : (s.setA v).memory = s.memory := rfl
@[simp] theorem setA_memRead (s : State) (v : Byte) (a : Addr) : (s.setA v).memRead a = s.memRead a := rfl

@[simp] theorem latchB_A (s : State) (latch : Bool) (m : Byte) : (s.latchB latch m).A = s.A := rfl
@[simp] theorem latchB_B (s : State) (latch : Bool) (m : Byte) : (s.latchB latch m).B = if latch then m else s.B := rfl
@[simp] theorem latchB_IR (s : State) (latch : Bool) (m : Byte) : (s.latchB latch m).IR = s.IR := rfl
@[simp] theorem latchB_PC (s : State) (latch : Bool) (m : Byte) : (s.latchB latch m).PC = s.PC := rfl
@[simp] theorem latchB_OUT (s : State) (latch : Bool) (m : Byte) : (s.latchB latch m).OUT = s.OUT := rfl
@[simp] theorem latchB_halted (s : State) (latch : Bool) (m : Byte) : (s.latchB latch m).halted = s.halted := rfl
@[simp] theorem latchB_carryFlag (s : State) (latch : Bool) (m : Byte) : (s.latchB latch m).carryFlag = s.carryFlag := rfl
@[simp] theorem latchB_zeroFlag (s : State) (latch : Bool) (m : Byte) : (s.latchB latch m).zeroFlag = s.zeroFlag := rfl
@[simp] theorem latchB_fault (s : State) (latch : Bool) (m : Byte) : (s.latchB latch m).fault = s.fault := rfl
@[simp] theorem latchB_memory (s : State) (latch : Bool) (m : Byte) : (s.latchB latch m).memory = s.memory := rfl
@[simp] theorem latchB_memRead (s : State) (latch : Bool) (m : Byte) (a : Addr) : (s.latchB latch m).memRead a = s.memRead a := rfl

@[simp] theorem setOUT_A (s : State) (v : Byte) : (s.setOUT v).A = s.A := rfl
@[simp] theorem setOUT_B (s : State) (v : Byte) : (s.setOUT v).B = s.B := rfl
@[simp] theorem setOUT_IR (s : State) (v : Byte) : (s.setOUT v).IR = s.IR := rfl
@[simp] theorem setOUT_PC (s : State) (v : Byte) : (s.setOUT v).PC = s.PC := rfl
@[simp] theorem setOUT_OUT (s : State) (v : Byte) : (s.setOUT v).OUT = v := rfl
@[simp] theorem setOUT_halted (s : State) (v : Byte) : (s.setOUT v).halted = s.halted := rfl
@[simp] theorem setOUT_carryFlag (s : State) (v : Byte) : (s.setOUT v).carryFlag = s.carryFlag := rfl
@[simp] theorem setOUT_zeroFlag (s : State) (v : Byte) : (s.setOUT v).zeroFlag = s.zeroFlag := rfl
@[simp] theorem setOUT_fault (s : State) (v : Byte) : (s.setOUT v).fault = s.fault := rfl
@[simp] theorem setOUT_memory (s : State) (v : Byte) : (s.setOUT v).memory = s.memory := rfl
@[simp] theorem setOUT_memRead (s : State) (v : Byte) (a : Addr) : (s.setOUT v).memRead a = s.memRead a := rfl

@[simp] theorem setFlags_A (s : State) (c z : Bool) : (s.setFlags c z).A = s.A := rfl
@[simp] theorem setFlags_B (s : State) (c z : Bool) : (s.setFlags c z).B = s.B := rfl
@[simp] theorem setFlags_IR (s : State) (c z : Bool) : (s.setFlags c z).IR = s.IR := rfl
@[simp] theorem setFlags_PC (s : State) (c z : Bool) : (s.setFlags c z).PC = s.PC := rfl
@[simp] theorem setFlags_OUT (s : State) (c z : Bool) : (s.setFlags c z).OUT = s.OUT := rfl
@[simp] theorem setFlags_halted (s : State) (c z : Bool) : (s.setFlags c z).halted = s.halted := rfl
@[simp] theorem setFlags_carryFlag (s : State) (c z : Bool) : (s.setFlags c z).carryFlag = c := rfl
@[simp] theorem setFlags_zeroFlag (s : State) (c z : Bool) : (s.setFlags c z).zeroFlag = z := rfl
@[simp] theorem setFlags_fault (s : State) (c z : Bool) : (s.setFlags c z).fault = s.fault := rfl
@[simp] theorem setFlags_memory (s : State) (c z : Bool) : (s.setFlags c z).memory = s.memory := rfl
@[simp] theorem setFlags_memRead (s : State) (c z : Bool) (a : Addr) : (s.setFlags c z).memRead a = s.memRead a := rfl

@[simp] theorem setHalted_A (s : State) : (s.setHalted).A = s.A := rfl
@[simp] theorem setHalted_B (s : State) : (s.setHalted).B = s.B := rfl
@[simp] theorem setHalted_IR (s : State) : (s.setHalted).IR = s.IR := rfl
@[simp] theorem setHalted_PC (s : State) : (s.setHalted).PC = s.PC := rfl
@[simp] theorem setHalted_OUT (s : State) : (s.setHalted).OUT = s.OUT := rfl
@[simp] theorem setHalted_halted (s : State) : (s.setHalted).halted = true := rfl
@[simp] theorem setHalted_carryFlag (s : State) : (s.setHalted).carryFlag = s.carryFlag := rfl
@[simp] theorem setHalted_zeroFlag (s : State) : (s.setHalted).zeroFlag = s.zeroFlag := rfl
@[simp] theorem setHalted_fault (s : State) : (s.setHalted).fault = s.fault := rfl
@[simp] theorem setHalted_memory (s : State) : (s.setHalted).memory = s.memory := rfl
@[simp] theorem setHalted_memRead (s : State) (a : Addr) : (s.setHalted).memRead a = s.memRead a := rfl

@[simp] theorem setPC_A (s : State) (target : Addr) : (s.setPC target).A = s.A := rfl
@[simp] theorem setPC_B (s : State) (target : Addr) : (s.setPC target).B = s.B := rfl
@[simp] theorem setPC_IR (s : State) (target : Addr) : (s.setPC target).IR = s.IR := rfl
@[simp] theorem setPC_PC (s : State) (target : Addr) : (s.setPC target).PC = target := rfl
@[simp] theorem setPC_OUT (s : State) (target : Addr) : (s.setPC target).OUT = s.OUT := rfl
@[simp] theorem setPC_halted (s : State) (target : Addr) : (s.setPC target).halted = s.halted := rfl
@[simp] theorem setPC_carryFlag (s : State) (target : Addr) : (s.setPC target).carryFlag = s.carryFlag := rfl
@[simp] theorem setPC_zeroFlag (s : State) (target : Addr) : (s.setPC target).zeroFlag = s.zeroFlag := rfl
@[simp] theorem setPC_fault (s : State) (target : Addr) : (s.setPC target).fault = s.fault := rfl
@[simp] theorem setPC_memory (s : State) (target : Addr) : (s.setPC target).memory = s.memory := rfl
@[simp] theorem setPC_memRead (s : State) (target : Addr) (a : Addr) : (s.setPC target).memRead a = s.memRead a := rfl

@[simp] theorem advancePC_A (s : State) : (s.advancePC).A = s.A := rfl
@[simp] theorem advancePC_B (s : State) : (s.advancePC).B = s.B := rfl
@[simp] theorem advancePC_IR (s : State) : (s.advancePC).IR = s.IR := rfl
/-- The PC advance is addition on 4 bits (30_encoding.md R308). -/
@[simp] theorem advancePC_PC (s : State) : (s.advancePC).PC = s.PC + 1 := by
  apply BitVec.eq_of_toNat_eq
  simp [advancePC, setPC, BitVec.toNat_add]
@[simp] theorem advancePC_OUT (s : State) : (s.advancePC).OUT = s.OUT := rfl
@[simp] theorem advancePC_halted (s : State) : (s.advancePC).halted = s.halted := rfl
@[simp] theorem advancePC_carryFlag (s : State) : (s.advancePC).carryFlag = s.carryFlag := rfl
@[simp] theorem advancePC_zeroFlag (s : State) : (s.advancePC).zeroFlag = s.zeroFlag := rfl
@[simp] theorem advancePC_fault (s : State) : (s.advancePC).fault = s.fault := rfl
@[simp] theorem advancePC_memory (s : State) : (s.advancePC).memory = s.memory := rfl
@[simp] theorem advancePC_memRead (s : State) (a : Addr) : (s.advancePC).memRead a = s.memRead a := rfl

@[simp] theorem fetch_A (s : State) : (s.fetch).A = s.A := rfl
@[simp] theorem fetch_B (s : State) : (s.fetch).B = s.B := rfl
@[simp] theorem fetch_IR (s : State) : (s.fetch).IR = s.fetchByte := rfl
@[simp] theorem fetch_PC (s : State) : (s.fetch).PC = s.PC := rfl
@[simp] theorem fetch_OUT (s : State) : (s.fetch).OUT = s.OUT := rfl
@[simp] theorem fetch_halted (s : State) : (s.fetch).halted = s.halted := rfl
@[simp] theorem fetch_carryFlag (s : State) : (s.fetch).carryFlag = s.carryFlag := rfl
@[simp] theorem fetch_zeroFlag (s : State) : (s.fetch).zeroFlag = s.zeroFlag := rfl
@[simp] theorem fetch_fault (s : State) : (s.fetch).fault = s.fault := rfl
@[simp] theorem fetch_memory (s : State) : (s.fetch).memory = s.memory := rfl
@[simp] theorem fetch_memRead (s : State) (a : Addr) : (s.fetch).memRead a = s.memRead a := rfl

end State

@[simp] theorem raiseIllegalOpcode_A (s : State) : (raiseIllegalOpcode s).A = s.A := rfl
@[simp] theorem raiseIllegalOpcode_B (s : State) : (raiseIllegalOpcode s).B = s.B := rfl
@[simp] theorem raiseIllegalOpcode_IR (s : State) : (raiseIllegalOpcode s).IR = s.IR := rfl
@[simp] theorem raiseIllegalOpcode_PC (s : State) : (raiseIllegalOpcode s).PC = s.PC := rfl
@[simp] theorem raiseIllegalOpcode_OUT (s : State) : (raiseIllegalOpcode s).OUT = s.OUT := rfl
@[simp] theorem raiseIllegalOpcode_halted (s : State) : (raiseIllegalOpcode s).halted = s.halted := rfl
@[simp] theorem raiseIllegalOpcode_carryFlag (s : State) : (raiseIllegalOpcode s).carryFlag = s.carryFlag := rfl
@[simp] theorem raiseIllegalOpcode_zeroFlag (s : State) : (raiseIllegalOpcode s).zeroFlag = s.zeroFlag := rfl
@[simp] theorem raiseIllegalOpcode_fault (s : State) : (raiseIllegalOpcode s).fault = true := rfl
@[simp] theorem raiseIllegalOpcode_memory (s : State) : (raiseIllegalOpcode s).memory = s.memory := rfl
@[simp] theorem raiseIllegalOpcode_memRead (s : State) (a : Addr) : (raiseIllegalOpcode s).memRead a = s.memRead a := rfl

@[simp] theorem placeFetchByte_A (s : State) (b : Byte) : (placeFetchByte s b).A = s.A := rfl
@[simp] theorem placeFetchByte_B (s : State) (b : Byte) : (placeFetchByte s b).B = s.B := rfl
@[simp] theorem placeFetchByte_IR (s : State) (b : Byte) : (placeFetchByte s b).IR = s.IR := rfl
@[simp] theorem placeFetchByte_PC (s : State) (b : Byte) : (placeFetchByte s b).PC = s.PC := rfl
@[simp] theorem placeFetchByte_OUT (s : State) (b : Byte) : (placeFetchByte s b).OUT = s.OUT := rfl
@[simp] theorem placeFetchByte_halted (s : State) (b : Byte) : (placeFetchByte s b).halted = false := rfl
@[simp] theorem placeFetchByte_carryFlag (s : State) (b : Byte) : (placeFetchByte s b).carryFlag = s.carryFlag := rfl
@[simp] theorem placeFetchByte_zeroFlag (s : State) (b : Byte) : (placeFetchByte s b).zeroFlag = s.zeroFlag := rfl
@[simp] theorem placeFetchByte_fault (s : State) (b : Byte) : (placeFetchByte s b).fault = false := rfl
@[simp] theorem placeFetchByte_memory (s : State) (b : Byte) : (placeFetchByte s b).memory = Memory.write s.memory s.PC b := rfl

@[simp] theorem load_A (image : Image) : (load image).A = State.reset.A := rfl
@[simp] theorem load_B (image : Image) : (load image).B = State.reset.B := rfl
@[simp] theorem load_IR (image : Image) : (load image).IR = State.reset.IR := rfl
@[simp] theorem load_PC (image : Image) : (load image).PC = State.reset.PC := rfl
@[simp] theorem load_OUT (image : Image) : (load image).OUT = State.reset.OUT := rfl
@[simp] theorem load_halted (image : Image) : (load image).halted = State.reset.halted := rfl
@[simp] theorem load_carryFlag (image : Image) : (load image).carryFlag = State.reset.carryFlag := rfl
@[simp] theorem load_zeroFlag (image : Image) : (load image).zeroFlag = State.reset.zeroFlag := rfl
@[simp] theorem load_fault (image : Image) : (load image).fault = State.reset.fault := rfl
@[simp] theorem load_memory (image : Image) : (load image).memory = imageMemory image := rfl

end Sys2Proof.Machine
end

