-- ==== Sys2Proof/Laws/Exec.lean ====
section
/-! SUPPORT. What the execute phase and a step can do, said once: the state each answers. -/

namespace Sys2Proof.Machine

/-- The result byte of ADD is addition on 8 bits. -/
@[simp] theorem sumByte_eq (a m : Byte) : sumByte a m = a + m := by
  apply BitVec.eq_of_toNat_eq
  simp [sumByte, exactSum, BitVec.toNat_add]

/-- The result byte of SUB is subtraction on 8 bits. -/
@[simp] theorem differenceByte_eq (a m : Byte) : differenceByte a m = a - m := by
  apply BitVec.eq_of_toNat_eq
  have ha := a.isLt
  have hm := m.isLt
  simp only [differenceByte, exactDifference, BitVec.toNat_ofInt, BitVec.toNat_sub]
  omega

theorem addCarry_iff (a m : Byte) : addCarry a m = true ↔ a.toNat + m.toNat > 255 := by
  simp [addCarry, exactSum]

theorem subBorrow_iff (a m : Byte) : subBorrow a m = true ↔ a.toNat < m.toNat := by
  simp [subBorrow]

theorem isZero_iff (r : Byte) : isZero r = true ↔ r = 0x00#8 := by
  simp [isZero]

/-- What the ALU write-back does, for either value of the parameter. -/
theorem aluWriteBack_eq (latch : Bool) (m r : Byte) (c : Bool) (s : State) :
    aluWriteBack latch m r c s =
      { s with A := r, B := if latch then m else s.B, carryFlag := c, zeroFlag := isZero r, PC := s.PC + 1 } := by
  have h := State.advancePC_PC (((s.latchB latch m).setFlags c (isZero r)).setA r)
  simp only [State.setA_PC, State.setFlags_PC, State.latchB_PC] at h
  unfold aluWriteBack
  rw [← h]
  rfl

/-- The PC advance as one record update. -/
theorem advancePC_eq (s : State) : s.advancePC = { s with PC := s.PC + 1 } := by
  rw [← State.advancePC_PC]
  rfl

/-- The state the execute phase answers. -/
def execResult (i : Instr) (s : State) : State :=
  match i with
  | .nop => { s with PC := s.PC + 1 }
  | .lda a => { s with A := s.memRead a, PC := s.PC + 1 }
  | .add a =>
    { s with
      A := s.A + s.memRead a
      B := if bLatchesOperand then s.memRead a else s.B
      carryFlag := addCarry s.A (s.memRead a)
      zeroFlag := isZero (s.A + s.memRead a)
      PC := s.PC + 1 }
  | .sub a =>
    { s with
      A := s.A - s.memRead a
      B := if bLatchesOperand then s.memRead a else s.B
      carryFlag := subBorrow s.A (s.memRead a)
      zeroFlag := isZero (s.A - s.memRead a)
      PC := s.PC + 1 }
  | .sta a => { s with memory := Memory.write s.memory a s.A, PC := s.PC + 1 }
  | .out => { s with OUT := s.A, PC := s.PC + 1 }
  | .ldi k => { s with A := zext8 k, PC := s.PC + 1 }
  | .jmp a => { s with PC := a }
  | .jc a => { s with PC := if s.carryFlag then a else s.PC + 1 }
  | .hlt => { s with halted := true, PC := s.PC + 1 }

/-- What `exec` does, said once. -/
theorem exec_eq_execResult (i : Instr) (s : State) : exec i s = .next (execResult i s) := by
  cases i with
  | jc a => cases hc : s.carryFlag <;> simp [exec, execJc, execResult, hc, advancePC_eq, State.setPC]
  | add a => simp [exec, execAdd, execResult, aluWriteBack_eq, addressOperand]
  | sub a => simp [exec, execSub, execResult, aluWriteBack_eq, addressOperand]
  | _ =>
    simp [exec, execNop, execLda, execSta, execOut, execLdi, execJmp, execHlt, execResult, advancePC_eq, addressOperand,
      immediateOperand, State.setA, State.setOUT, State.setPC, State.setHalted, State.memWrite]

/-- The state a step answers. -/
def stepResult (s : State) : State :=
  if s.stopped then s
  else
    match decode s.fetchByte with
    | .instr i => execResult i s.fetch
    | .unassigned _ => raiseIllegalOpcode s.fetch

/-- What `step` does, said once. -/
theorem step_eq_stepResult (s : State) : step s = .next (stepResult s) := by
  unfold step cycle stepResult
  cases s.stopped with
  | true => rfl
  | false =>
    simp only [Bool.false_eq_true, if_false, decodeExecute, State.fetch_IR]
    cases decode s.fetchByte with
    | instr i => exact exec_eq_execResult i s.fetch
    | unassigned b => rfl

/-- The cases of a step. -/
theorem step_cases {s t : State} (h : step s = .next t) :
    (s.stopped = true ∧ t = s) ∨
    (s.stopped = false ∧ ∃ i, decode s.fetchByte = .instr i ∧ t = execResult i s.fetch) ∨
    (s.stopped = false ∧ ∃ b, decode s.fetchByte = .unassigned b ∧ t = raiseIllegalOpcode s.fetch) := by
  rw [step_eq_stepResult, Host.Outcome.next.injEq] at h
  subst h
  unfold stepResult
  cases hs : s.stopped
  · cases hd : decode s.fetchByte with
    | instr i => exact Or.inr (Or.inl ⟨rfl, i, rfl, by simp⟩)
    | unassigned b => exact Or.inr (Or.inr ⟨rfl, b, rfl, by simp⟩)
  · exact Or.inl ⟨rfl, by simp⟩

@[simp] theorem stopped_eq_false_iff (s : State) : s.stopped = false ↔ s.halted = false ∧ s.fault = false := by
  simp [State.stopped]

end Sys2Proof.Machine
end

