-- ==== Sys2Proof/Laws/Memory.lean ====
section
/-! SUPPORT. The laws of the memory: a read returns the last value written, a write changes no other byte and keeps the
canonical form, and canonical memories that read alike are equal. -/

namespace Sys2Proof.Machine

namespace Memory

/-- The byte a list of cells holds at a key. -/
def byteAt (m : Memory) (key : Nat) : Byte :=
  match m.find? fun c => c.1 == key with
  | some c => c.2
  | none => unlistedByte

theorem read_eq_byteAt (m : Memory) (addr : Addr) : m.read addr = m.byteAt addr.toNat := rfl

@[simp] theorem byteAt_nil (key : Nat) : Memory.byteAt [] key = unlistedByte := rfl

theorem byteAt_cons (c : Host.Cell) (m : Memory) (key : Nat) :
    Memory.byteAt (c :: m) key = if c.1 = key then c.2 else m.byteAt key := by
  by_cases h : c.1 = key <;> simp [Memory.byteAt, h]

theorem byteAt_insertCell (m : Memory) (key : Nat) (v : Byte) (k : Nat) :
    (insertCell key v m).byteAt k = if k = key then v else m.byteAt k := by
  induction m with
  | nil => by_cases h : k = key <;> simp [insertCell, byteAt_cons, h, eq_comm (a := key)]
  | cons c cs ih =>
    unfold insertCell
    split
    · by_cases h : k = key <;> simp [byteAt_cons, h, eq_comm (a := key)]
    · split
      · rename_i h
        subst h
        by_cases h : k = c.1 <;> simp [byteAt_cons, h, eq_comm (a := c.1)]
      · rename_i h
        simp only [byteAt_cons, ih]
        split_ifs with h1 h2 <;> simp_all

theorem byteAt_filter (m : Memory) (key k : Nat) :
    Memory.byteAt (m.filter fun c => c.1 != key) k = if k = key then unlistedByte else m.byteAt k := by
  induction m with
  | nil => simp
  | cons c cs ih =>
    by_cases h : c.1 = key
    · rw [List.filter_cons_of_neg (by simp [h]), ih, byteAt_cons]
      by_cases hk : k = key
      · simp [hk]
      · simp [h, hk, Ne.symm hk]
    · simp only [bne_iff_ne, ne_eq, h, not_false_eq_true, List.filter_cons_of_pos, byteAt_cons, ih]
      split_ifs <;> simp_all

/-- MemRead after MemWrite (20_memory.md R202): the byte written at its address, every other byte as before. -/
theorem read_write (m : Memory) (a b : Addr) (v : Byte) :
    (m.write a v).read b = if b = a then v else m.read b := by
  have key : (b.toNat = a.toNat) = (b = a) := propext BitVec.toNat_inj
  unfold write
  split
  · rename_i h
    rw [read_eq_byteAt, byteAt_filter]
    simp only [key, h]
    rfl
  · rw [read_eq_byteAt, byteAt_insertCell]
    simp only [key]
    rfl

@[simp] theorem read_write_self (m : Memory) (a : Addr) (v : Byte) : (m.write a v).read a = v := by
  simp [read_write]

@[simp] theorem wf_nil : Memory.wf [] = true := rfl

theorem wf_iff (m : Memory) : m.wf = true ↔
    (m.Pairwise fun c d => c.1 < d.1) ∧ ∀ c ∈ m, c.1 < memoryBytes ∧ c.2 ≠ unlistedByte := by
  simp [wf]

theorem mem_insertCell {m : Memory} {key : Nat} {v : Byte} {c : Host.Cell} (h : c ∈ insertCell key v m) :
    c = (key, v) ∨ c ∈ m := by
  induction m with
  | nil => simpa [insertCell] using h
  | cons d ds ih =>
    unfold insertCell at h
    split at h
    · simpa using h
    · split at h
      · rcases List.mem_cons.1 h with h | h <;> simp [h]
      · rcases List.mem_cons.1 h with h | h
        · simp [h]
        · rcases ih h with h | h <;> simp [h]

theorem pairwise_insertCell {m : Memory} (key : Nat) (v : Byte) (h : m.Pairwise fun c d => c.1 < d.1) :
    (insertCell key v m).Pairwise fun c d => c.1 < d.1 := by
  induction m with
  | nil => simp [insertCell]
  | cons d ds ih =>
    obtain ⟨hd, hds⟩ := List.pairwise_cons.1 h
    unfold insertCell
    split
    · rename_i hlt
      refine List.pairwise_cons.2 ⟨fun c hc => ?_, h⟩
      rcases List.mem_cons.1 hc with rfl | hc
      · exact hlt
      · exact lt_trans hlt (hd c hc)
    · split
      · rename_i heq
        exact List.pairwise_cons.2 ⟨fun c hc => heq ▸ hd c hc, hds⟩
      · rename_i hlt hne
        refine List.pairwise_cons.2 ⟨fun c hc => ?_, ih hds⟩
        rcases mem_insertCell hc with rfl | hc
        · show d.1 < key
          omega
        · exact hd c hc

/-- A write keeps the canonical form. -/
theorem wf_write (m : Memory) (a : Addr) (v : Byte) (h : m.wf = true) : (m.write a v).wf = true := by
  obtain ⟨hp, hc⟩ := (wf_iff m).1 h
  refine (wf_iff _).2 ?_
  unfold write
  split
  · exact ⟨hp.sublist List.filter_sublist, fun c hc' => hc c (List.mem_filter.1 hc').1⟩
  · rename_i hv
    refine ⟨pairwise_insertCell _ _ hp, fun c hc' => ?_⟩
    rcases mem_insertCell hc' with rfl | hc'
    · exact ⟨a.isLt, hv⟩
    · exact hc c hc'

theorem byteAt_eq_unlisted_of_lt {m : Memory} {k : Nat} (h : ∀ c ∈ m, k < c.1) : m.byteAt k = unlistedByte := by
  induction m with
  | nil => rfl
  | cons c cs ih =>
    have hc : c.1 ≠ k := (h c (by simp)).ne'
    simp [byteAt_cons, hc, ih fun d hd => h d (by simp [hd])]

theorem ext_byteAt {m n : Memory} (hm : m.wf = true) (hn : n.wf = true) (h : ∀ k, m.byteAt k = n.byteAt k) : m = n := by
  rw [wf_iff] at hm hn
  obtain ⟨hmp, hmc⟩ := hm
  obtain ⟨hnp, hnc⟩ := hn
  induction m generalizing n with
  | nil =>
    cases n with
    | nil => rfl
    | cons d ds =>
      have := h d.1
      simp only [byteAt_nil, byteAt_cons, if_true] at this
      exact absurd this.symm (hnc d (by simp)).2
  | cons c cs ih =>
    obtain ⟨hcp, hcs⟩ := List.pairwise_cons.1 hmp
    cases n with
    | nil =>
      have := h c.1
      simp only [byteAt_nil, byteAt_cons, if_true] at this
      exact absurd this (hmc c (by simp)).2
    | cons d ds =>
      obtain ⟨hdp, hds⟩ := List.pairwise_cons.1 hnp
      have hkey : c.1 = d.1 := by
        rcases lt_trichotomy c.1 d.1 with hlt | heq | hlt
        · have := h c.1
          rw [byteAt_eq_unlisted_of_lt (m := d :: ds)] at this
          · simp only [byteAt_cons, if_true] at this
            exact absurd this (hmc c (by simp)).2
          · intro e he
            rcases List.mem_cons.1 he with rfl | he
            · exact hlt
            · exact lt_trans hlt (hdp e he)
        · exact heq
        · have := h d.1
          rw [byteAt_eq_unlisted_of_lt (m := c :: cs)] at this
          · simp only [byteAt_cons, if_true] at this
            exact absurd this.symm (hnc d (by simp)).2
          · intro e he
            rcases List.mem_cons.1 he with rfl | he
            · exact hlt
            · exact lt_trans hlt (hcp e he)
      have hval : c.2 = d.2 := by
        have := h c.1
        simpa [byteAt_cons, hkey] using this
      have htail : cs = ds := by
        refine ih (fun k => ?_) hcs (fun e he => hmc e (List.mem_cons_of_mem _ he)) hds
          (fun e he => hnc e (List.mem_cons_of_mem _ he))
        have := h k
        simp only [byteAt_cons] at this
        by_cases hk : c.1 = k
        · rw [byteAt_eq_unlisted_of_lt fun e he => hk ▸ hcp e he,
            byteAt_eq_unlisted_of_lt fun e he => hk ▸ hkey.symm ▸ hdp e he]
        · simpa [hk, hkey ▸ hk] using this
      exact List.cons_eq_cons.2 ⟨Prod.ext hkey hval, htail⟩

theorem byteAt_of_le {m : Memory} (hm : m.wf = true) {k : Nat} (hk : memoryBytes ≤ k) : m.byteAt k = unlistedByte := by
  have hc := ((wf_iff m).1 hm).2
  clear hm
  induction m with
  | nil => rfl
  | cons c cs ih =>
    have hne : c.1 ≠ k := fun h => absurd (hc c (by simp)).1 (by omega)
    simp [byteAt_cons, hne, ih fun d hd => hc d (by simp [hd])]

/-- Canonical memories that read alike at every address are equal. -/
theorem ext_read {m n : Memory} (hm : m.wf = true) (hn : n.wf = true) (h : ∀ a : Addr, m.read a = n.read a) : m = n := by
  refine ext_byteAt hm hn fun k => ?_
  by_cases hk : k < memoryBytes
  · have := h (BitVec.ofNat 4 k)
    have hmod : k % 2 ^ 4 = k := Nat.mod_eq_of_lt hk
    simpa only [read_eq_byteAt, BitVec.toNat_ofNat, hmod] using this
  · rw [byteAt_of_le hm (by omega), byteAt_of_le hn (by omega)]

end Memory

theorem mem_allAddrs (a : Addr) : a ∈ allAddrs := by
  revert a
  decide

theorem wf_foldl_write (image : Image) (addrs : List Addr) (m : Memory) (h : m.wf = true) :
    (addrs.foldl (fun m a => Memory.write m a (image.byte a)) m).wf = true := by
  induction addrs generalizing m with
  | nil => exact h
  | cons a as ih => exact ih _ (Memory.wf_write m a _ h)

theorem read_foldl_write (image : Image) (addrs : List Addr) (m : Memory) (b : Addr) :
    (addrs.foldl (fun m a => Memory.write m a (image.byte a)) m).read b =
      if b ∈ addrs then image.byte b else m.read b := by
  induction addrs generalizing m with
  | nil => simp
  | cons a as ih =>
    rw [List.foldl_cons, ih, Memory.read_write]
    by_cases h : b ∈ as <;> by_cases hb : b = a <;> simp [h, hb]

/-- An image's memory is canonical. -/
theorem wf_imageMemory (image : Image) : (imageMemory image).wf = true :=
  wf_foldl_write image allAddrs [] Memory.wf_nil

/-- An image's memory holds byte i of the image at address i (70_reset_and_hazards.md R700). -/
theorem read_imageMemory (image : Image) (a : Addr) : (imageMemory image).read a = image.byte a := by
  unfold imageMemory
  rw [read_foldl_write, if_pos (mem_allAddrs a)]

/-- The boundary's image of a memory holds what a read gives. -/
theorem byte_memoryImage (m : Memory) (a : Addr) : (memoryImage m).byte a = m.read a := by
  simp [Image.byte, memoryImage]

/-- Every memory operation on a state keeps the canonical form. -/
theorem wf_memWrite (s : State) (a : Addr) (v : Byte) (h : Memory.wf s.memory = true) :
    Memory.wf (s.memWrite a v).memory = true :=
  Memory.wf_write s.memory a v h

theorem wf_placeFetchByte (s : State) (b : Byte) (h : Memory.wf s.memory = true) :
    Memory.wf (placeFetchByte s b).memory = true :=
  Memory.wf_write s.memory s.PC b h

theorem wf_reset : Memory.wf State.reset.memory = true := rfl

@[simp] theorem State.memRead_memWrite (s : State) (a b : Addr) (v : Byte) :
    (s.memWrite a v).memRead b = if b = a then v else s.memRead b :=
  Memory.read_write s.memory a b v

@[simp] theorem load_memRead (image : Image) (a : Addr) : (load image).memRead a = image.byte a :=
  read_imageMemory image a

end Sys2Proof.Machine
end

