-- ==== Sys2Proof/Laws/PerInstr.lean ====
section
/-! SUPPORT. A statement about every instruction as syntax, one lemma per constructor: the two fields of its byte. -/

namespace Sys2Proof.Laws.EncodedFields

/-- The byte of an instruction has its mnemonic's opcode in bits 7-4 and its operand, or 0, in bits 3-0
(45_assembler.md R540). -/
def Statement (i : Instr) : Prop :=
  opcodeField (encode i) = opcodeOf i.mnemonic ∧ operandField (encode i) = i.operand

theorem of_pack (i : Instr) : Statement i :=
  ⟨opcodeField_packByte _ _, operandField_packByte _ _⟩

theorem nop : Statement .nop := of_pack _
theorem lda (addr : Addr) : Statement (.lda addr) := of_pack _
theorem add (addr : Addr) : Statement (.add addr) := of_pack _
theorem sub (addr : Addr) : Statement (.sub addr) := of_pack _
theorem sta (addr : Addr) : Statement (.sta addr) := of_pack _
theorem out : Statement .out := of_pack _
theorem ldi (imm : Nibble) : Statement (.ldi imm) := of_pack _
theorem jmp (addr : Addr) : Statement (.jmp addr) := of_pack _
theorem jc (addr : Addr) : Statement (.jc addr) := of_pack _
theorem hlt : Statement .hlt := of_pack _

end Sys2Proof.Laws.EncodedFields
end

