-- ==== Sys2Proof/Laws/Run.lean ====
section
/-! SUPPORT. The loop of `run`, one lemma per case, and the one induction over it; and all that a host operation on one of
several engines can answer. -/

namespace Sys2Proof.Machine

theorem runFrom_fault {n left : Nat} {s : State} (h : s.fault = true) :
    runFrom n left s = .next ⟨.illegalOpcode, n, s⟩ := by
  cases left <;> simp [runFrom, h]

theorem runFrom_halted {n left : Nat} {s : State} (hf : s.fault = false) (h : s.halted = true) :
    runFrom n left s = .next ⟨.halted, n, s⟩ := by
  cases left <;> simp [runFrom, hf, h]

theorem runFrom_zero {n : Nat} {s : State} (hf : s.fault = false) (hh : s.halted = false) :
    runFrom n 0 s = .next ⟨.stepBudgetExhausted, n, s⟩ := by
  simp [runFrom, hf, hh]

theorem runFrom_succ {n left : Nat} {s : State} (hf : s.fault = false) (hh : s.halted = false) :
    runFrom n (left + 1) s = runFrom (n + 1) left (stepResult s) := by
  rw [runFrom]
  simp [hf, hh, step_eq_stepResult]

/-- `k + 1` steps of the host's machine are one step and then `k`. -/
theorem coreRun_succ (k : Nat) (s : State) :
    Host.Core.run Sys2Proof.core (k + 1) s = Host.Core.run Sys2Proof.core k (stepResult s) := by
  have h : Sys2Proof.core.step s = .next (stepResult s) := step_eq_stepResult s
  refine (Host.Core.run.eq_2 Sys2Proof.core s k).trans ?_
  rw [h]

/-- A property that every step keeps holds of the state `run` ends in. -/
theorem runFrom_induct {P : State → Prop} (hstep : ∀ s t, P s → step s = .next t → P t) :
    ∀ (left n : Nat) (s : State) (r : RunResult), P s → runFrom n left s = .next r → P r.state := by
  intro left
  induction left with
  | zero =>
    intro n s r hs h
    unfold runFrom at h
    split at h
    · cases h
      exact hs
    · split at h <;> (cases h; exact hs)
  | succ left ih =>
    intro n s r hs h
    cases hf : s.fault with
    | true =>
      rw [runFrom_fault hf] at h
      cases h
      exact hs
    | false =>
      cases hh : s.halted with
      | true =>
        rw [runFrom_halted hf hh] at h
        cases h
        exact hs
      | false =>
        rw [runFrom_succ hf hh] at h
        exact ih _ _ r (hstep s _ hs (step_eq_stepResult s)) h

/-- All that `hostCallAt` does where it answers: the engine at the index exists, the operation is `hostCall` on it, and only
that engine is replaced. -/
theorem hostCallAt_eq_next {j : Nat} {c : HostCall} {es fs : List Engine} {r : Reply} :
    hostCallAt j c es = .next (fs, r) ↔
      ∃ e e', es[j]? = some e ∧ hostCall c e = .next (e', r) ∧ fs = es.set j e' := by
  unfold hostCallAt
  constructor
  · intro h
    split at h
    · cases h
    · rename_i e he
      split at h <;> cases h
      exact ⟨e, _, he, by assumption, rfl⟩
  · rintro ⟨e, e', he, hc, rfl⟩
    simp [he, hc]

end Sys2Proof.Machine
end

