-- ==== Sys2Proof/Tests/Slice0.lean ====
section
/-! SUPPORT. Tests of the model. Expected results are the spec's own vectors (95_test_vectors.md, named V-… or E…) or its
encodings and examples, never the model's answers. After them, for each statement with hypotheses, a witness that meets
them, at a boundary value where a range is meant. -/

namespace Sys2Proof.Machine.Tests

/-- The next state of an outcome, if it is one. -/
def nextState {σ : Type} : Host.Outcome σ Fault Refusal → Option σ
  | .next t => some t
  | .fault _ | .refused _ => none

/-- A small state: A, PC, the flags and the listed cells; everything else as after reset. -/
def small (a : Byte) (p : Addr) (c z : Bool) (cells : Memory) : State :=
  { State.reset with A := a, PC := p, carryFlag := c, zeroFlag := z, memory := cells }

/-- A, OUT, PC, CarryFlag, ZeroFlag, Halted and Fault, in the order of 95_test_vectors.md. -/
structure View where
  A : Byte
  OUT : Byte
  PC : Addr
  C : Bool
  Z : Bool
  H : Bool
  F : Bool
  deriving DecidableEq, Repr

/-- What a vector shows of a state. -/
def view (s : State) : View := ⟨s.A, s.OUT, s.PC, s.carryFlag, s.zeroFlag, s.halted, s.fault⟩

/-- An image from its first bytes, the rest zero. -/
def imageOf (bytes : List Byte) : Image := Vector.ofFn fun i => bytes.getD i.val 0x00#8

/-- The bytes of an assembled image, or the diagnostic. -/
def assembled (text : String) : Except Diagnostic (List Byte) := (assemble text.toList).map Vector.toList

/-- An assembly's first bytes, where every later byte is zero. -/
def givesBytes (text : String) (bytes : List Byte) : Bool :=
  match assembled text with
  | .ok bs => bs == bytes ++ List.replicate (16 - bytes.length) 0x00#8
  | .error _ => false

/-- An assembly fails with this diagnostic. -/
def givesError (text : String) (line : Nat) (kind : ErrorKind) : Bool :=
  match assembled text with
  | .ok _ => false
  | .error d => d == ⟨line, kind⟩

/-! ### Words written out bit by bit from the encodings of 30_encoding.md R303 -/

theorem test_decode_nop : decode 0b00000000#8 = .instr .nop := by decide
theorem test_decode_lda : decode 0b00010100#8 = .instr (.lda 4#4) := by decide
theorem test_decode_add : decode 0b00100101#8 = .instr (.add 5#4) := by decide
theorem test_decode_sub : decode 0b00111101#8 = .instr (.sub 13#4) := by decide
theorem test_decode_sta : decode 0b01001111#8 = .instr (.sta 15#4) := by decide
theorem test_decode_out : decode 0b01010000#8 = .instr .out := by decide
theorem test_decode_ldi : decode 0b01101010#8 = .instr (.ldi 10#4) := by decide
theorem test_decode_jmp : decode 0b01110011#8 = .instr (.jmp 3#4) := by decide
theorem test_decode_jc : decode 0b10000111#8 = .instr (.jc 7#4) := by decide
theorem test_decode_hlt : decode 0b11110000#8 = .instr .hlt := by decide
/-- Operand bits of a None-kind byte are ignored (R309): the spec's 0x0E, 0x5C, 0xF7. -/
theorem test_decode_ignores_operand_bits :
    decode 0b00001110#8 = .instr .nop ∧ decode 0b01011100#8 = .instr .out ∧ decode 0b11110111#8 = .instr .hlt := by decide
/-- The unassigned opcodes at both ends (R305). -/
theorem test_decode_unassigned :
    decode 0b10010000#8 = .unassigned 0x90#8 ∧ decode 0b11101111#8 = .unassigned 0xEF#8 := by decide
theorem test_encode : encode (.jc 7#4) = 0x87#8 ∧ encode .hlt = 0xF0#8 ∧ encode (.sta 14#4) = 0x4E#8 := by decide
theorem test_decodeTableWord :
    decodeTableWord 8 0x14 = some (.lda 4#4) ∧ decodeTableWord 8 0x90 = none ∧ decodeTableWord 4 0xF3 = some .nop := by decide

/-! ### WellFormed: an ill-formed term for each check, which the check refuses -/

theorem test_operandFits_refuses :
    operandFits .immediate 16 = false ∧ operandFits .addressOrLabel 16 = false ∧ operandFits .none 1 = false := by decide
theorem test_operandFits_accepts :
    operandFits .immediate 15 = true ∧ operandFits .addressOrLabel 15 = true ∧ operandFits .none 0 = true := by decide
theorem test_assignment_not_injective :
    assignmentInjective (fun m => if m = .nop then 0x3#4 else opcodeOf m) = false := by decide
/-- The list order read as the values, which 90_conflicts.md C1 rejects. -/
theorem test_assignment_list_order :
    assignmentKeepsPinned (fun m => BitVec.ofNat 4 (Mnemonic.all.idxOf m)) = false := by decide
theorem test_assignment_on_unassigned :
    assignmentAvoidsUnassigned (fun m => if m = .jc then 0xE#4 else opcodeOf m) = false := by decide

/-! ### One step each -/

/-- V-DT-2: LDA writes no flags, even for 0. -/
theorem test_lda_keeps_flags :
    (nextState (step (small 0x55#8 2#4 true true [(2, 0x19#8)]))).map view =
      some ⟨0x00#8, 0x00#8, 3#4, true, true, false, false⟩ := by decide
/-- V-DT-3: LDA loads its own byte. -/
theorem test_lda_own_byte :
    (nextState (step (small 0x00#8 7#4 false false [(7, 0x17#8)]))).map (fun s => (s.A, s.PC, s.IR)) =
      some (0x17#8, 8#4, 0x17#8) := by decide
/-- V-DT-4. -/
theorem test_sta_top_of_memory :
    (nextState (step (small 0x2A#8 0#4 false false [(0, 0x4F#8)]))).map (fun s => (s.memRead 15#4, s.A, s.PC)) =
      some (0x2A#8, 0x2A#8, 1#4) := by decide
/-- V-DT-5: STA to its own address completes as STA. -/
theorem test_sta_own_address :
    (nextState (step (small 0xF0#8 3#4 false false [(3, 0x43#8)]))).map (fun s => (s.memory, s.PC, s.halted)) =
      some ([(3, 0xF0#8)], 4#4, false) := by decide
/-- V-DT-7: LDI 0 does not set ZeroFlag. -/
theorem test_ldi_zero_keeps_flag :
    (nextState (step (small 0xFF#8 1#4 false false [(1, 0x60#8)]))).map view =
      some ⟨0x00#8, 0x00#8, 2#4, false, false, false, false⟩ := by decide
/-- V-DT-8 and V-DT-11: the literal is zero-extended, and PC wraps. -/
theorem test_ldi_zero_extends_and_wraps :
    (nextState (step (small 0x80#8 15#4 false false [(15, 0x6F#8)]))).map (fun s => (s.A, s.PC)) = some (0x0F#8, 0#4) := by
  decide
/-- V-DT-10. -/
theorem test_out_ignores_operand_bits :
    (nextState (step (small 0x07#8 0#4 false false [(0, 0x5C#8)]))).map (fun s => (s.OUT, s.A, s.PC)) =
      some (0x07#8, 0x07#8, 1#4) := by decide
/-- V-AR-2: carry and zero together. -/
theorem test_add_carry_and_zero :
    (nextState (step (small 0x80#8 0#4 false false [(0, 0x25#8), (5, 0x80#8)]))).map view =
      some ⟨0x00#8, 0x00#8, 1#4, true, true, false, false⟩ := by decide
/-- V-AR-6 with both old flags set: no signed overflow, the old flags are no input. -/
theorem test_add_old_flags_no_input :
    (nextState (step (small 0x7F#8 0#4 true true [(0, 0x25#8), (5, 0x01#8)]))).map view =
      some ⟨0x80#8, 0x00#8, 1#4, false, false, false, false⟩ := by decide
/-- V-AR-8: a borrow sets CarryFlag. -/
theorem test_sub_borrow :
    (nextState (step (small 0x01#8 0#4 false false [(0, 0x3D#8), (13, 0x03#8)]))).map view =
      some ⟨0xFE#8, 0x00#8, 1#4, true, false, false, false⟩ := by decide
/-- V-AR-10: equal operands, no borrow, zero; B stays 0 (V-AR-17). -/
theorem test_sub_equal :
    (nextState (step (small 0x05#8 0#4 true false [(0, 0x35#8), (5, 0x05#8)]))).map (fun s => (view s, s.B)) =
      some (⟨0x00#8, 0x00#8, 1#4, false, true, false, false⟩, 0x00#8) := by decide
/-- V-AR-17: with bLatchesOperand true, V-AR-1 would leave B = 1C. -/
theorem test_latch_parameter :
    (aluWriteBack true 0x1C#8 0x2A#8 false State.reset).B = 0x1C#8 ∧
    (aluWriteBack false 0x1C#8 0x2A#8 false State.reset).B = 0x00#8 := by decide
/-- V-CT-2. -/
theorem test_nop_wraps :
    (nextState (step (small 0x00#8 15#4 false false []))).map view =
      some ⟨0x00#8, 0x00#8, 0#4, false, false, false, false⟩ := by decide
/-- V-CT-4. -/
theorem test_jmp_no_advance :
    (nextState (step (small 0x00#8 6#4 false false [(6, 0x73#8)]))).map State.PC = some 3#4 := by decide
/-- V-CT-6. -/
theorem test_jc_taken :
    (nextState (step (small 0x00#8 5#4 true false [(5, 0x87#8)]))).map (fun s => (s.PC, s.carryFlag)) =
      some (7#4, true) := by decide
/-- V-CT-9: JC does not read ZeroFlag. -/
theorem test_jc_ignores_zero :
    (nextState (step (small 0x00#8 4#4 false true [(4, 0x80#8)]))).map State.PC = some 5#4 := by decide
/-- V-CT-11. -/
theorem test_hlt_advances_and_wraps :
    (nextState (step (small 0x00#8 15#4 false false [(15, 0xF7#8)]))).map (fun s => (s.halted, s.PC)) = some (true, 0#4) := by
  decide
/-- V-CT-12: a step of a halted engine fetches nothing. -/
theorem test_halted_step_keeps_ir :
    (nextState (step { small 0x00#8 4#4 false false [(4, 0x65#8)] with halted := true, IR := 0xF0#8 })).map
      (fun s => (s.IR, s.PC, s.A)) = some (0xF0#8, 4#4, 0x00#8) := by decide
/-- V-EX-3: IR holds the offending byte and PC its address. -/
theorem test_unassigned_faults :
    (nextState (step (load (imageOf [0xE5#8])))).map (fun s => (view s, s.IR)) =
      some (⟨0x00#8, 0x00#8, 0#4, false, false, false, true⟩, 0xE5#8) := by decide
theorem test_withFetchWord :
    (nextState (step (State.reset.withFetchWord 8 0x6F))).map (fun s => (s.A, s.PC)) = some (0x0F#8, 1#4) := by decide

/-! ### The host operations -/

/-- V-RS-1. -/
theorem test_load_zero_image : load (imageOf []) = State.reset := by decide
/-- V-EX-1: `run(10)` of `61 90 62` ends with IllegalOpcode after 2 steps. -/
theorem test_run_illegal :
    (nextState (run 10 (load (imageOf [0x61#8, 0x90#8, 0x62#8])))).map
      (fun r => (r.outcome, r.steps, view r.state, r.state.IR)) =
      some (.illegalOpcode, 2, ⟨0x01#8, 0x00#8, 1#4, false, false, false, true⟩, 0x90#8) := by decide
/-- The halt falls exactly on the budget (as V-EX-8), and one step less exhausts it. -/
theorem test_run_halts_on_budget :
    (nextState (run 2 (load (imageOf [0x65#8, 0xF0#8])))).map (fun r => (r.outcome, r.steps)) = some (.halted, 2) ∧
    (nextState (run 1 (load (imageOf [0x65#8, 0xF0#8])))).map (fun r => (r.outcome, r.steps)) =
      some (.stepBudgetExhausted, 1) := by decide
/-- R702. -/
theorem test_refused_before_load : nextState (hostCall .step .unloaded) = none := by decide
/-- Log entry 16: at an index without an engine `load` too is refused, and on an engine never loaded it is not (R701). -/
theorem test_load_needs_an_engine :
    nextState (hostCallAt 1 (.load zeroImage) [.unloaded]) = none ∧
    nextState (hostCallAt 0 (.load zeroImage) [.unloaded]) = some ([.loaded State.reset], .done) := by decide
/-- R113: the boundary shows the memory bytes. -/
theorem test_boundary_memory :
    (boundary (small 0x00#8 0#4 false false [(3, 0x2A#8)])).memory = imageOf [0x00#8, 0x00#8, 0x00#8, 0x2A#8] := by decide
/-- R704: the source's `LDI 5`, `OUT`, `HLT` yields OUT = 5 (E2). -/
theorem test_assemble_and_run :
    (match assembleAndRun "LDI 5\nOUT\nHLT".toList 3 with
      | .ok o => (nextState o).map fun r => (r.1, r.2.OUT, r.2.PC)
      | .error _ => none) = some (.halted, 0x05#8, 3#4) := by
  have image : assemble "LDI 5\nOUT\nHLT".toList = .ok (imageOf [0x65#8, 0x50#8, 0xF0#8]) := by rfl
  simp only [assembleAndRun, image]
  decide

/-! ### The assembler -/

/-- V-AS-2. -/
theorem test_asm_case_folding : givesBytes "ldi 7\nOut\nhlt" [0x67#8, 0x50#8, 0xF0#8] = true := by decide
/-- V-AS-3. -/
theorem test_asm_comments : givesBytes "LDI 5;x\nOUT ; c\n; only comment\n\nHLT" [0x65#8, 0x50#8, 0xF0#8] = true := by decide
/-- V-AS-4. -/
theorem test_asm_crlf : givesBytes "LDI 5\r\nHLT\r\n" [0x65#8, 0xF0#8] = true := by decide
/-- V-AS-5. -/
theorem test_asm_items_on_one_line : givesBytes "loop: ADD 14 JMP loop" [0x2E#8, 0x70#8] = true := by decide
/-- V-AS-8. -/
theorem test_asm_forward_reference : givesBytes "JMP end\nNOP\nend: HLT" [0x72#8, 0x00#8, 0xF0#8] = true := by decide
/-- V-AS-34. -/
theorem test_asm_operand_like_mnemonic : givesBytes "JMP HLT\nHLT: HLT" [0x71#8, 0xF0#8] = true := by decide
/-- V-AS-12 and V-AS-13. -/
theorem test_asm_ldi_range :
    givesError "LDI 16" 1 .operandOutOfRange = true ∧
    givesError "LDI 99999999999999999999999" 1 .operandOutOfRange = true := by decide
/-- V-AS-14 and V-AS-20. -/
theorem test_asm_invalid_literals :
    givesError "LDI -1" 1 .invalidLiteral = true ∧ givesError "LDA 4abc" 1 .invalidLiteral = true := by decide
/-- V-AS-21 and V-AS-26. -/
theorem test_asm_invalid_labels :
    givesError "JMP _x" 1 .invalidLabelName = true ∧ givesError "5: NOP" 1 .invalidLabelName = true := by decide
/-- V-AS-23 and V-AS-25. -/
theorem test_asm_label_table :
    givesError "Loop: NOP\nJMP loop" 2 .undefinedLabel = true ∧
    givesError "x: NOP\nx: NOP" 2 .duplicateLabel = true := by decide
/-- V-AS-30 and V-AS-31. -/
theorem test_asm_syntax_errors :
    givesError "LDA\n5" 1 .syntaxError = true ∧ givesError "OUT 5" 1 .syntaxError = true := by decide
/-- V-AS-37, the 17 instructions on one line each. -/
theorem test_asm_too_large :
    givesError "NOP\nNOP\nNOP\nNOP\nNOP\nNOP\nNOP\nNOP\nNOP\nNOP\nNOP\nNOP\nNOP\nNOP\nNOP\nNOP\nNOP" 17 .programTooLarge = true := by
  decide
/-- V-AS-40: Stage 2 before Stage 3. -/
theorem test_asm_stage_order : givesError "JMP nowhere\nFOO" 2 .syntaxError = true := by decide

/-! ### Witnesses: states and operands that meet the hypotheses of the statements -/

/-- A reset state with one instruction's byte at PC. -/
def running (b : Byte) : State := { State.reset with memory := [(0, b)] }

/-- A halted state, as HLT at address 0 leaves it. -/
def haltedState : State := { running 0xF0#8 with halted := true, IR := 0xF0#8, PC := 1#4 }

/-- A faulted state, as the byte 0x90 at address 0 leaves it. -/
def faultedState : State := { running 0x90#8 with fault := true, IR := 0x90#8 }

/-- The literal 16, the first value out of range. -/
def sixteen : Token := ['1', '6']

theorem witness_LdiLoadsImmediate : isDecimal sixteen = true ∧ 15 < decimalValue sixteen := by decide
theorem witness_NopOnlyAdvances : (small 0x00#8 15#4 false false []).PC = 15#4 := by decide
theorem witness_JmpSetsProgramCounter :
    operandNumber [] Mnemonic.jmp.operandKind (some sixteen) = .ok 16 ∧ 16 ≤ 16 := ⟨rfl, by decide⟩
theorem witness_JcFollowsCarryFlag :
    operandNumber [(['x'], 16)] Mnemonic.jc.operandKind (some ['x']) = .ok 16 ∧ 16 ≤ 16 := ⟨rfl, by decide⟩
theorem witness_HltHaltsAndAdvances : State.reset.fault = false := by decide
theorem witness_FlagsWrittenOnlyByAddAndSub :
    ∃ t, exec .nop State.reset = .next t ∧ ∀ addr, Instr.nop ≠ .add addr ∧ Instr.nop ≠ .sub addr :=
  ⟨_, rfl, fun _ => ⟨nofun, nofun⟩⟩
theorem witness_AccumulatorAccess_written :
    ∃ t, exec (.sta 15#4) State.reset = .next t ∧ (Instr.sta 15#4).mnemonic ∉ [Mnemonic.lda, .add, .sub, .ldi] :=
  ⟨_, rfl, by decide⟩
theorem witness_AccumulatorAccess_read : (Instr.jc 15#4).mnemonic ∉ [Mnemonic.add, .sub, .sta, .out] := by decide
theorem witness_OutLatchAccess :
    (∃ t, exec .hlt State.reset = .next t ∧ Instr.hlt ≠ .out) ∧ (∃ t, exec .out State.reset = .next t) ∧
    ∃ t, exec (.sta 15#4) State.reset = .next t := ⟨⟨_, rfl, nofun⟩, ⟨_, rfl⟩, ⟨_, rfl⟩⟩
theorem witness_CarryFlagAccess : ∀ addr, Instr.jmp 15#4 ≠ .jc addr := nofun
theorem witness_HaltedAccess :
    (∃ t, step (running 0xF0#8) = .next t ∧ (running 0xF0#8).halted = false) ∧
    (haltedState.halted = true ∧ ∃ e r, hostCall .step (.loaded haltedState) = .next (e, r)) ∧
    ∃ e r, hostCall (.load zeroImage) (.loaded haltedState) = .next (e, r) :=
  ⟨⟨_, rfl, rfl⟩, ⟨rfl, _, _, rfl⟩, _, _, rfl⟩
theorem witness_FaultFlagAccess :
    (∃ t, step (running 0x90#8) = .next t ∧ (running 0x90#8).fault = false) ∧
    (faultedState.fault = true ∧ ∃ e r, hostCall .step (.loaded faultedState) = .next (e, r)) ∧
    ∃ e r, hostCall (.load zeroImage) (.loaded faultedState) = .next (e, r) :=
  ⟨⟨_, rfl, rfl⟩, ⟨rfl, _, _, rfl⟩, _, _, rfl⟩
theorem witness_InstructionFrame :
    (∃ t, exec (.add 15#4) State.reset = .next t) ∧ (Instr.add 15#4).mnemonic ≠ .sta ∧ (Instr.add 15#4).mnemonic ≠ .out ∧
    (Instr.add 15#4).mnemonic ≠ .hlt ∧
    (∃ t, exec .nop State.reset = .next t) ∧ Instr.nop.mnemonic ∉ [Mnemonic.lda, .add, .sub, .ldi] ∧
    Instr.nop.mnemonic ∉ [Mnemonic.add, .sub] := by
  refine ⟨⟨_, rfl⟩, ?_, ?_, ?_, ⟨_, rfl⟩, ?_, ?_⟩ <;> decide
theorem witness_StaFrame : (∃ t, exec (.sta 15#4) State.reset = .next t) ∧ (0#4 : Addr) ≠ 15#4 := ⟨⟨_, rfl⟩, by decide⟩
theorem witness_ProgramCounterRule :
    (∃ t, exec (.jmp 15#4) State.reset = .next t) ∧
    (∃ t, exec (.jc 15#4) (small 0x00#8 0#4 true false []) = .next t ∧ (small 0x00#8 0#4 true false []).carryFlag = true) ∧
    ∃ t, exec (.jc 15#4) (small 0x00#8 15#4 false false []) = .next t ∧
      ∀ addr, Instr.jc 15#4 ≠ .jmp addr ∧
        ¬ (Instr.jc 15#4 = .jc addr ∧ (small 0x00#8 15#4 false false []).carryFlag = true) :=
  ⟨⟨_, rfl⟩, ⟨_, rfl, rfl⟩, _, rfl, fun _ => ⟨nofun, by simp [small]⟩⟩
theorem witness_StepRunsDecodedInstruction :
    (running 0x4F#8).halted = false ∧ (running 0x4F#8).fault = false ∧
    decode ((running 0x4F#8).memRead (running 0x4F#8).PC) = .instr (.sta 15#4) := by decide
theorem witness_HaltedStepChangesNothing : haltedState.halted = true := by decide
/-- Both ends of the range of unassigned opcodes. -/
theorem witness_UnassignedOpcodeFaults :
    (running 0x90#8).halted = false ∧ (running 0x90#8).fault = false ∧
    0x9 ≤ (opcodeField ((running 0x90#8).memRead (running 0x90#8).PC)).toNat ∧
    (opcodeField ((running 0x90#8).memRead (running 0x90#8).PC)).toNat ≤ 0xE ∧
    0x9 ≤ (opcodeField ((running 0xEF#8).memRead (running 0xEF#8).PC)).toNat ∧
    (opcodeField ((running 0xEF#8).memRead (running 0xEF#8).PC)).toNat ≤ 0xE ∧
    ∃ t, exec .nop State.reset = .next t := by
  refine ⟨?_, ?_, ?_, ?_, ?_, ?_, _, rfl⟩ <;> decide
theorem witness_StopFlagsAreMonotone :
    (∃ t, step haltedState = .next t ∧ haltedState.halted = true) ∧
    (∃ t, step faultedState = .next t ∧ faultedState.fault = true) ∧
    (∃ r, run 1 haltedState = .next r) ∧ ∃ r, run 1 faultedState = .next r :=
  ⟨⟨_, rfl, rfl⟩, ⟨_, rfl, rfl⟩, ⟨_, rfl⟩, _, rfl⟩
/-- An STA at address 0 to address 1, which the next step fetches. -/
theorem witness_StoreSeenByNextFetch :
    (running 0x41#8).halted = false ∧ (running 0x41#8).fault = false ∧
    decode ((running 0x41#8).memRead (running 0x41#8).PC) = .instr (.sta 1#4) ∧
    ∃ t u, step (running 0x41#8) = .next t ∧ step t = .next u ∧ t.PC = 1#4 := by
  refine ⟨?_, ?_, ?_, _, _, rfl, rfl, ?_⟩ <;> decide
theorem witness_StepKeepsInvariant :
    (haltedState.Inv ∧ ∃ t, step haltedState = .next t) ∧ (faultedState.Inv ∧ ∃ t, step faultedState = .next t) ∧
    (running 0x41#8).Inv ∧ ∃ t, step (running 0x41#8) = .next t := by
  refine ⟨⟨?_, _, rfl⟩, ⟨?_, _, rfl⟩, ?_, _, rfl⟩ <;> constructor <;> decide
theorem witness_DecodeEncodeForEveryAssignment :
    assignmentWf opcodeOf = true ∧
    assignmentWf (fun m => if m = .nop then 0x8#4 else if m = .jc then 0x0#4 else opcodeOf m) = true := by decide
theorem witness_EncodeOfDecodedByte :
    decodeWith opcodeOf 0xFF#8 = .instr .hlt ∧ decodeWith opcodeOf 0x8F#8 = .instr (.jc 15#4) := by decide
theorem witness_DecodeIsTotal :
    ¬ (0x90 ≤ (0x8F#8).toNat ∧ (0x8F#8).toNat ≤ 0xEF) ∧ ¬ (0x90 ≤ (0xF0#8).toNat ∧ (0xF0#8).toNat ≤ 0xEF) ∧
    (0x90 ≤ (0x90#8).toNat ∧ (0xEF#8).toNat ≤ 0xEF) := by decide
theorem witness_OperandBitsOfNoneKindIgnored :
    Mnemonic.nop.operandKind = .none ∧ Mnemonic.out.operandKind = .none ∧ Mnemonic.hlt.operandKind = .none := by decide
theorem witness_LoadAtAnyTimeReplacesState : haltedState.halted = true ∧ ∀ image, HostCall.step ≠ .load image := ⟨rfl, nofun⟩
theorem witness_RefusedBeforeFirstLoad :
    (∀ image, HostCall.step ≠ .load image) ∧ (∀ image, HostCall.run 0 ≠ .load image) ∧
    (∀ image, HostCall.readBoundary ≠ .load image) ∧ (∃ t, step (running 0x4F#8) = .next t) ∧
    ∃ r, run 1 (running 0xF0#8) = .next r := ⟨nofun, nofun, nofun, ⟨_, rfl⟩, _, rfl⟩
theorem witness_InstancesShareNothing :
    (∃ fs r, hostCallAt 1 .step [.unloaded, .loaded State.reset] = .next (fs, r)) ∧ 0 ≠ 1 ∧
    (([.unloaded, .loaded State.reset] : List Engine)[0]? = some .unloaded ∧
      hostCall (.load zeroImage) .unloaded = .next (.loaded (load zeroImage), .done)) ∧
    ([.unloaded, .loaded State.reset] : List Engine).length ≤ 2 ∧
    ([.unloaded, .loaded State.reset] : List Engine)[1]? = ([.loaded haltedState, .loaded State.reset] : List Engine)[1]? :=
  ⟨⟨_, _, rfl⟩, by decide, ⟨rfl, rfl⟩, by decide, rfl⟩
theorem witness_BoundaryShowsAllButIr :
    Memory.wf haltedState.memory = true ∧ boundary haltedState = boundary haltedState ∧ haltedState.IR = haltedState.IR :=
  ⟨by decide, rfl, rfl⟩
theorem witness_RunOutcomeSaysTheStopState :
    (∃ r, run 1 (running 0xF0#8) = .next r ∧ r.outcome = .halted) ∧
    (∃ r, run 1 (running 0x90#8) = .next r ∧ r.outcome = .illegalOpcode) ∧
    (∃ r, run 1 (running 0x65#8) = .next r ∧ r.outcome = .stepBudgetExhausted) ∧
    haltedState.halted = true ∧ faultedState.fault = true :=
  ⟨⟨_, rfl, rfl⟩, ⟨_, rfl, rfl⟩, ⟨_, rfl, rfl⟩, rfl, rfl⟩
theorem witness_RunSplitsAnywhere :
    (∃ r, run 1 (running 0xF0#8) = .next r ∧ r.outcome ≠ .stepBudgetExhausted) ∧
    ∃ r, run 1 (running 0x65#8) = .next r ∧ r.outcome = .stepBudgetExhausted ∧ ∃ q, run 2 r.state = .next q :=
  ⟨⟨_, rfl, nofun⟩, _, rfl, rfl, _, rfl⟩
theorem witness_HiddenStateNeverSteers :
    State.SameProgramView (running 0x25#8)
      { running 0x25#8 with B := 0x11#8, IR := 0x22#8, OUT := 0x33#8, zeroFlag := true } :=
  ⟨rfl, rfl, rfl, rfl, rfl, rfl⟩
theorem witness_SelfJumpNeverHalts :
    (running 0x70#8).halted = false ∧ (running 0x70#8).fault = false ∧
    decode ((running 0x70#8).memRead (running 0x70#8).PC) = .instr (.jmp (running 0x70#8).PC) := by decide
theorem witness_OnlyStoresMakeIllegalBytes :
    State.reset.AllExecutable ∧ State.reset.fault = false ∧ (∃ t, step State.reset = .next t) ∧
    ∀ addr, decode (State.reset.memRead State.reset.PC) ≠ .instr (.sta addr) :=
  ⟨fun _ => ⟨.nop, show decode unlistedByte = .instr .nop by decide⟩, rfl, ⟨_, rfl⟩, by decide⟩
theorem witness_AssembledStoreFreeImagesRunSafely :
    ∃ image, assemble ['H', 'L', 'T'] = .ok image ∧
      ∀ a k : Addr, decode ((load image).memRead a) ≠ .instr (.sta k) :=
  ⟨imageOf [0xF0#8], by rfl, by decide⟩
theorem witness_TokensOfALine :
    ['L', 'D', 'I'] ∈ lineTokens ['L', 'D', 'I', '\t', '5', ';', 'x'] ∧
    ((['L', 'D', 'I'] : List Char) ≠ [] ∧ ∀ c ∈ ['L', 'D', 'I'], isSpace c = false ∧ c ≠ ';') ∧
    ';' ∉ ['L', 'D', 'I'] ∧ isSpace '\t' = true := by
  refine ⟨by decide, ⟨nofun, ?_⟩, by decide, by decide⟩
  simp [isSpace]
theorem witness_ParseOfMnemonic :
    mnemonicOf ['n', 'o', 'P'] = some .nop ∧ Mnemonic.nop.operandKind = .none ∧
    mnemonicOf ['J', 'c'] = some .jc ∧ Mnemonic.jc.operandKind ≠ .none := by decide
theorem witness_ParseOfLabelDefinition :
    (['5'] : Token) ≠ [] ∧ isIdentifier ['5'] = false ∧ (['x'] : Token) ≠ [] ∧ isIdentifier ['x'] = true ∧
    (['x'] : Token) ∈ [(['x'], 0)].map Prod.fst ∧ (['x'] : Token) ∉ [(['X'], 0)].map Prod.fst := by decide
theorem witness_ParseOfOtherToken :
    mnemonicOf [':'] = none ∧ isLabelDef [':'] = false ∧ mnemonicOf ['H', 'L', 'T'] = some .hlt := by decide
theorem witness_LabelTableIsSound : ∃ p, parse ['e', ':', ' ', 'J', 'C', ' ', 'e'] = .ok p ∧ p.labels ≠ [] ∧ p.instrs ≠ [] :=
  ⟨⟨[⟨.jc, some ['e'], 1⟩], [(['e'], 0)]⟩, by rfl, by decide, by decide⟩
theorem witness_ImmediateOperandRule :
    isDecimal ['x'] = false ∧ isDecimal sixteen = true ∧ 15 < decimalValue sixteen ∧
    isDecimal ['1', '5'] = true ∧ decimalValue ['1', '5'] ≤ 15 := by decide
theorem witness_AddressOperandRule :
    (startsWithDigit ['4', 'a'] = true ∧ isDecimal ['4', 'a'] = false) ∧
    (startsWithDigit ['_'] = false ∧ isIdentifier ['_'] = false) ∧
    (isIdentifier ['x'] = true ∧ ([] : List (Token × Nat)).lookup ['x'] = none) ∧
    (isDecimal sixteen = true ∧ 15 < decimalValue sixteen) ∧
    (isIdentifier ['x'] = true ∧ [((['x'] : Token), 15)].lookup ['x'] = some 15) ∧
    (isIdentifier ['x'] = true ∧ [((['x'] : Token), 16)].lookup ['x'] = some 16) := by decide
theorem witness_AssembledImageDecodesBack :
    (∃ image, assemble ['J', 'C', ' ', '7'] = .ok image) ∧
    ∃ p, parse ['J', 'C', ' ', '7'] = .ok p ∧ p.instrs[0]? = some ⟨.jc, some ['7'], 1⟩ ∧ p.instrs.length ≤ 15 :=
  ⟨⟨imageOf [0x87#8], by rfl⟩, ⟨[⟨.jc, some ['7'], 1⟩], []⟩, by rfl, rfl, by decide⟩
/-- The reference before the definition and after it, the label at address 1 in both. -/
theorem witness_ForwardReferencesEncodeAlike :
    (∃ image, assemble "JC e\ne: HLT".toList = .ok image) ∧ (∃ image, assemble "NOP\ne: JC e".toList = .ok image) ∧
    (∃ p, parse "JC e\ne: HLT".toList = .ok p ∧ p.instrs[0]? = some ⟨.jc, some ['e'], 1⟩ ∧
      p.labels.lookup ['e'] = some 1) ∧
    (∃ p, parse "NOP\ne: JC e".toList = .ok p ∧ p.instrs[1]? = some ⟨.jc, some ['e'], 2⟩ ∧
      p.labels.lookup ['e'] = some 1) ∧
    Mnemonic.jc.operandKind = .addressOrLabel ∧ isIdentifier ['e'] = true :=
  ⟨⟨imageOf [0x81#8, 0xF0#8], by rfl⟩, ⟨imageOf [0x00#8, 0x81#8], by rfl⟩,
    ⟨⟨[⟨.jc, some ['e'], 1⟩, ⟨.hlt, none, 2⟩], [(['e'], 1)]⟩, by rfl, rfl, rfl⟩,
    ⟨⟨[⟨.nop, none, 1⟩, ⟨.jc, some ['e'], 2⟩], [(['e'], 1)]⟩, by rfl, rfl, rfl⟩, rfl, by decide⟩
/-- Stage 2 stops at line 2 of three, after a first line that passes. -/
theorem witness_FirstStageThreeFailure_parse :
    ∃ front l back p, tokenLines "NOP\n5\nHLT".toList = front ++ l :: back ∧
      front.foldlM (fun p l => parseLine l.1 l.2 p) ⟨[], []⟩ = .ok p ∧
      parseLine l.1 l.2 p = .error ⟨2, .syntaxError⟩ ∧ parse "NOP\n5\nHLT".toList = .error ⟨2, .syntaxError⟩ :=
  ⟨[(1, [['N', 'O', 'P']])], (2, [['5']]), [(3, [['H', 'L', 'T']])], ⟨[⟨.nop, none, 1⟩], []⟩, by rfl, by rfl, by rfl, by rfl⟩
/-- A program whose operands all resolve. -/
theorem witness_FirstStageThreeFailure_assembles :
    ∃ p, parse "JC 15".toList = .ok p ∧ p.instrs.length ≤ 16 ∧
      ∀ i ∈ p.instrs, ∃ v, resolveOperand p.labels i.operandKind i.operand = .ok v :=
  ⟨⟨[⟨.jc, some ['1', '5'], 1⟩], []⟩, by rfl, by decide, fun i hi => by
    rw [List.mem_singleton.1 hi]
    exact ⟨15#4, by rfl⟩⟩
theorem witness_FirstStageThreeFailure_operand :
    ∃ p i, parse "NOP JMP x".toList = .ok p ∧ p.instrs = [⟨.nop, none, 1⟩] ++ i :: [] ∧
      (∃ v, resolveOperand p.labels OperandKind.none none = .ok v) ∧
      resolveOperand p.labels i.operandKind i.operand = .error .undefinedLabel :=
  ⟨⟨[⟨.nop, none, 1⟩, ⟨.jmp, some ['x'], 1⟩], []⟩, ⟨.jmp, some ['x'], 1⟩, by rfl, rfl, ⟨_, rfl⟩, rfl⟩
/-- A program of 17 instructions, the first 16 of which resolve. -/
theorem witness_FirstStageThreeFailure_size :
    ∃ p i, parse "NOP NOP NOP NOP NOP NOP NOP NOP NOP NOP NOP NOP NOP NOP NOP NOP NOP".toList = .ok p ∧
      p.instrs = List.replicate 16 ⟨.nop, none, 1⟩ ++ i :: [] ∧ 16 < p.instrs.length ∧
      ∀ k ∈ List.replicate 16 (⟨.nop, none, 1⟩ : SourceInstr),
        ∃ v, resolveOperand p.labels k.operandKind k.operand = .ok v :=
  ⟨⟨List.replicate 17 ⟨.nop, none, 1⟩, []⟩, ⟨.nop, none, 1⟩, by rfl, rfl, by decide, fun k hk => by
    rw [List.eq_of_mem_replicate hk]
    exact ⟨_, rfl⟩⟩

end Sys2Proof.Machine.Tests
end

/-! PROOFS. The state's registers and flags (10_state.md): which instruction writes each, which reads it, and what a
stopped engine's host can do to it. -/

namespace Sys2Proof.Machine

/-! ### The answer of the execute phase -/

/-- Inversion of the execute phase: what it answers is `execResult`. -/
theorem eq_execResult_of_exec {i : Instr} {s t : State} (h : exec i s = .next t) : t = execResult i s := by
  rw [exec_eq_execResult, Host.Outcome.next.injEq] at h
  exact h.symm

theorem mnemonic_mem_addSub_iff (i : Instr) :
    i.mnemonic ∈ [Mnemonic.add, .sub] ↔ ∃ addr, i = .add addr ∨ i = .sub addr := by
  cases i <;> simp [Instr.mnemonic]

/-! ### Which instruction writes a field -/

theorem execResult_A_of_not_writer {i : Instr} (s : State) (h : i.mnemonic ∉ [Mnemonic.lda, .add, .sub, .ldi]) :
    (execResult i s).A = s.A := by
  cases i with
  | lda _ | add _ | sub _ | ldi _ => exact absurd h (by simp [Instr.mnemonic])
  | _ => rfl

theorem execResult_OUT_of_ne_out {i : Instr} (s : State) (h : i ≠ .out) : (execResult i s).OUT = s.OUT := by
  cases i with
  | out => exact absurd rfl h
  | _ => rfl

theorem execResult_flags_of_not_addSub {i : Instr} (s : State) (h : i.mnemonic ∉ [Mnemonic.add, .sub]) :
    (execResult i s).carryFlag = s.carryFlag ∧ (execResult i s).zeroFlag = s.zeroFlag := by
  cases i with
  | add _ | sub _ => exact absurd h (by simp [Instr.mnemonic])
  | _ => exact ⟨rfl, rfl⟩

theorem execResult_halted_iff (i : Instr) (s : State) :
    (execResult i s).halted = true ↔ s.halted = true ∨ i = .hlt := by
  cases i <;> simp [execResult]

theorem execResult_PC_of_not_jump {i : Instr} {s : State}
    (h : ∀ addr, i ≠ .jmp addr ∧ ¬ (i = .jc addr ∧ s.carryFlag = true)) : (execResult i s).PC = s.PC + 1 := by
  cases i with
  | jmp addr => exact absurd rfl (h addr).1
  | jc addr =>
    have hc : s.carryFlag ≠ true := fun hc => (h addr).2 ⟨rfl, hc⟩
    simp [execResult, hc]
  | _ => rfl

/-! ### Which instruction reads a field: two states that differ in it alone are answered alike but for that field -/

theorem execResult_withA {i : Instr} (s : State) (v : Byte) (h : i.mnemonic ∉ [Mnemonic.add, .sub, .sta, .out]) :
    { execResult i { s with A := v } with A := (execResult i s).A } = execResult i s := by
  cases i with
  | add _ | sub _ | sta _ | out => exact absurd h (by simp [Instr.mnemonic])
  | _ => rfl

theorem execResult_withOUT (i : Instr) (s : State) (v : Byte) :
    { execResult i { s with OUT := v } with OUT := (execResult i s).OUT } = execResult i s := by
  cases i <;> rfl

theorem execResult_withCarryFlag {i : Instr} (s : State) (c : Bool) (h : ∀ addr, i ≠ .jc addr) :
    { execResult i { s with carryFlag := c } with carryFlag := (execResult i s).carryFlag } = execResult i s := by
  cases i with
  | jc addr => exact absurd rfl (h addr)
  | _ => rfl

theorem execResult_withZeroFlag (i : Instr) (s : State) (z : Bool) :
    { execResult i { s with zeroFlag := z } with zeroFlag := (execResult i s).zeroFlag } = execResult i s := by
  cases i <;> rfl

theorem execResult_withHalted (i : Instr) (s : State) (h : Bool) :
    { execResult i { s with halted := h } with halted := (execResult i s).halted } = execResult i s := by
  cases i <;> rfl

/-- The old flags are no input of an instruction that writes both (10_state.md R109). -/
theorem exec_withFlags_of_addSub {i : Instr} (s : State) (c z : Bool) (h : i.mnemonic ∈ [Mnemonic.add, .sub]) :
    exec i { s with carryFlag := c, zeroFlag := z } = exec i s := by
  obtain ⟨addr, rfl | rfl⟩ := (mnemonic_mem_addSub_iff i).1 h <;> rfl

/-! ### The 9-bit sum -/

/-- Two bytes added on 9 bits never wrap. -/
theorem toNat_nineBitSum (a m : Byte) : (a.zeroExtend 9 + m.zeroExtend 9).toNat = a.toNat + m.toNat := by
  have ha := a.isLt
  have hm := m.isLt
  simp only [BitVec.toNat_add, BitVec.truncate_eq_setWidth, BitVec.toNat_setWidth]
  omega

/-! ### A stopped engine -/

theorem stopped_of_halted {s : State} (h : s.halted = true) : s.stopped = true := by
  simp [State.stopped, h]

theorem step_of_stopped {s : State} (h : s.stopped = true) : step s = .next s := by
  rw [step_eq_stepResult]
  simp [stepResult, h]

theorem run_of_stopped {s : State} (h : s.stopped = true) (n : Nat) : ∃ o, run n s = .next ⟨o, 0, s⟩ := by
  cases hf : s.fault with
  | true => exact ⟨_, runFrom_fault hf⟩
  | false =>
    have hh : s.halted = true := by simpa [State.stopped, hf] using h
    exact ⟨_, runFrom_halted hf hh⟩

/-- On a stopped engine a host operation that is no `load` leaves the state (60_exceptions.md R615, R621). -/
theorem hostCall_of_stopped {s : State} {c : HostCall} {e : Engine} {r : Reply} (hs : s.stopped = true)
    (h : hostCall c (.loaded s) = .next (e, r)) :
    (∃ image, c = .load image ∧ e = .loaded (load image)) ∨ e = .loaded s := by
  cases c with
  | load image =>
    cases h
    exact Or.inl ⟨image, rfl, rfl⟩
  | step =>
    simp only [hostCall, callLoaded, step_of_stopped hs] at h
    cases h
    exact Or.inr rfl
  | run n =>
    obtain ⟨o, ho⟩ := run_of_stopped hs n
    simp only [hostCall, callLoaded, ho] at h
    cases h
    exact Or.inr rfl
  | readBoundary =>
    cases h
    exact Or.inr rfl

/-- A step sets Halted exactly where it executes HLT (10_state.md R110). -/
theorem step_sets_halted_iff {s t : State} (h : step s = .next t) (hs : s.halted = false) :
    t.halted = true ↔ s.fault = false ∧ decode s.fetchByte = .instr .hlt := by
  obtain ⟨hstop, rfl⟩ | ⟨hrun, i, hi, rfl⟩ | ⟨-, b, hb, rfl⟩ := step_cases h
  · have hf : t.fault = true := by simpa [State.stopped, hs] using hstop
    simp [hs, hf]
  · have hf : s.fault = false := ((stopped_eq_false_iff s).1 hrun).2
    simp [execResult_halted_iff, hs, hf, hi]
  · simp [hs, hb]

/-! ### The obligations -/

/-- Settles O12: ADD and SUB overwrite both flags unread, and no other arm has a flag write. -/
theorem flagsWrittenOnlyByAddAndSub : Obligations.FlagsWrittenOnlyByAddAndSub := by
  refine ⟨fun addr s c z => ⟨?_, ?_⟩, fun i s t h hi => ?_⟩
  · exact exec_withFlags_of_addSub s c z (by simp [Instr.mnemonic])
  · exact exec_withFlags_of_addSub s c z (by simp [Instr.mnemonic])
  · have hmem : i.mnemonic ∉ [Mnemonic.add, .sub] := fun hmem => by
      obtain ⟨addr, hadd | hsub⟩ := (mnemonic_mem_addSub_iff i).1 hmem
      · exact (hi addr).1 hadd
      · exact (hi addr).2 hsub
    rw [eq_execResult_of_exec h]
    exact execResult_flags_of_not_addSub s hmem

/-- Settles O13, from the writers and the readers of A. -/
theorem accumulatorAccess : Obligations.AccumulatorAccess := by
  refine ⟨fun i s t h hi => ?_, fun i s v hi => ?_, load_A⟩
  · rw [eq_execResult_of_exec h]
    exact execResult_A_of_not_writer s hi
  · exact ⟨_, _, exec_eq_execResult i s, exec_eq_execResult i _, execResult_withA s v hi⟩

/-- Settles O14: OUT is the latch's one writer, and no arm reads the latch. -/
theorem outLatchAccess : Obligations.OutLatchAccess := by
  refine ⟨fun i s t h hi => ?_, fun i s v => ?_, fun s t addr h => ?_, fun s t addr h => ?_, load_OUT⟩
  · rw [eq_execResult_of_exec h]
    exact execResult_OUT_of_ne_out s hi
  · exact ⟨_, _, exec_eq_execResult i s, exec_eq_execResult i _, execResult_withOUT i s v⟩
  · rw [eq_execResult_of_exec h]
    rfl
  · rw [eq_execResult_of_exec h]
    exact execResult_OUT_of_ne_out s nofun

/-- Settles O15: the carry is the 9-bit sum's excess, the borrow is the unsigned comparison, and only JC reads the flag. -/
theorem carryFlagAccess : Obligations.CarryFlagAccess := by
  refine ⟨fun addr s => ⟨_, exec_eq_execResult _ s, ?_⟩, fun addr s => ⟨_, exec_eq_execResult _ s, ?_⟩,
    fun i s c hi => ?_, load_carryFlag⟩
  · rw [toNat_nineBitSum]
    exact addCarry_iff s.A (s.memRead addr)
  · rw [BitVec.lt_def]
    exact subBorrow_iff s.A (s.memRead addr)
  · exact ⟨_, _, exec_eq_execResult i s, exec_eq_execResult i _, execResult_withCarryFlag s c hi⟩

/-- Settles O16: ADD and SUB test the byte they write to A, and no arm reads the flag. -/
theorem zeroFlagAccess : Obligations.ZeroFlagAccess := by
  refine ⟨fun addr s => ⟨⟨_, exec_eq_execResult _ s, ?_⟩, ⟨_, exec_eq_execResult _ s, ?_⟩⟩, fun i s z => ?_,
    fun _ => rfl, load_zeroFlag⟩
  · exact isZero_iff (s.A + s.memRead addr)
  · exact isZero_iff (s.A - s.memRead addr)
  · exact ⟨_, _, exec_eq_execResult i s, exec_eq_execResult i _, execResult_withZeroFlag i s z⟩

/-- Settles O17: of a step's cases only HLT's sets Halted, and a halted engine is stopped, so only `load` changes it. -/
theorem haltedAccess : Obligations.HaltedAccess := by
  refine ⟨fun s t h hs => step_sets_halted_iff h hs, fun s c e r hs h => ?_,
    fun s hs => step_of_stopped (stopped_of_halted hs), fun i s h => ?_⟩
  · obtain ⟨image, hc, he⟩ | he := hostCall_of_stopped (stopped_of_halted hs) h
    · exact Or.inl ⟨image, hc, he, load_halted image⟩
    · exact Or.inr he
  · exact ⟨_, _, exec_eq_execResult i s, exec_eq_execResult i _, execResult_withHalted i s h⟩

/-- Settles O21, from PC's value after a jump, a taken JC and every other instruction. -/
theorem programCounterRule : Obligations.ProgramCounterRule := by
  refine ⟨fun s => ⟨State.fetch_IR s, State.fetch_PC s⟩, fun i s t h => ?_,
    fun s p => ⟨_, step_eq_stepResult { s with PC := p }⟩, load_PC⟩
  rw [eq_execResult_of_exec h]
  refine ⟨?_, ?_, fun hi => ?_⟩
  · rintro addr rfl
    rfl
  · rintro addr rfl hc
    exact if_pos hc
  · rw [execResult_PC_of_not_jump hi, BitVec.toNat_add]
    rfl

end Sys2Proof.Machine

/-! PROOFS. The data transfer family (40_data_transfer.md): the bytes of LDA, STA, LDI and OUT, and what each does. -/

namespace Sys2Proof

/-! ### The decoder on a packed byte -/

theorem opcodeOf_injective : Function.Injective opcodeOf :=
  (assignmentInjective_iff opcodeOf).1 (by decide)

/-- A decoder whose mnemonics have different opcodes reads back the mnemonic and the field that were packed. -/
theorem decodeWith_packByte {opc : Mnemonic → Nibble} (hopc : Function.Injective opc) (m : Mnemonic) (k : Nibble) :
    decodeWith opc (packByte (opc m) k) = .instr (Instr.ofField m k) := by
  cases hd : decodeWith opc (packByte (opc m) k) with
  | instr i =>
    obtain ⟨n, hn, rfl⟩ := decodeWith_eq_instr hd
    rw [opcodeField_packByte] at hn
    rw [operandField_packByte, hopc hn]
  | unassigned b => exact absurd (opcodeField_packByte (opc m) k).symm ((decodeWith_eq_unassigned hd).2 m)

theorem decode_packByte (m : Mnemonic) (k : Nibble) :
    decode (packByte (opcodeOf m) k) = .instr (Instr.ofField m k) :=
  decodeWith_packByte opcodeOf_injective m k

/-- The decoder on a byte written as its two fields (30_encoding.md R301). -/
theorem decode_append (m : Mnemonic) (k : Nibble) : decode (opcodeOf m ++ k) = .instr (Instr.ofField m k) := by
  rw [← packByte_eq_append]
  exact decode_packByte m k

end Sys2Proof

namespace Sys2Proof.Machine

/-! ### The parts of the four meanings -/

/-- Zero extension puts four zero bits above the literal (00_scope.md R10). -/
theorem zext8_eq_append (k : Nibble) : zext8 k = 0x0#4 ++ k :=
  BitVec.setWidth_eq_append (by decide)

/-- STA changes memory and PC alone. -/
theorem execResult_sta_frame (addr : Addr) (s : State) :
    execResult (.sta addr) s = { s with memory := (execResult (.sta addr) s).memory, PC := s.PC + 1 } := rfl

theorem memRead_execResult_sta (addr b : Addr) (s : State) :
    (execResult (.sta addr) s).memRead b = if b = addr then s.A else s.memRead b :=
  State.memRead_memWrite s addr b s.A

/-! ### An operand's range -/

/-- An operand whose number needs more than 4 bits is refused, not truncated (45_assembler.md R531, R532). -/
theorem resolveOperand_outOfRange {labels : List (Token × Nat)} {kind : OperandKind} {o : Option Token} {v : Nat}
    (hv : operandNumber labels kind o = .ok v) (h : 15 < v) :
    resolveOperand labels kind o = .error .operandOutOfRange := by
  simp [resolveOperand, hv, h]

theorem operandNumber_immediate_of_decimal (labels : List (Token × Nat)) {t : Token} (h : isDecimal t = true) :
    operandNumber labels .immediate (some t) = .ok (decimalValue t) := by
  simp [operandNumber, h]

/-! ### The obligations -/

/-- Settles O1: 0001 is LDA's opcode, and LDA's answer is the memory operand in A with PC advanced. -/
theorem ldaLoadsMemoryByte : Obligations.LdaLoadsMemoryByte := fun addr s =>
  ⟨decode_append .lda addr, exec_eq_execResult (.lda addr) s⟩

/-- Settles O2: STA's answer differs in memory and PC alone, and a read after the write tells the two addresses apart. -/
theorem staStoresAccumulator : Obligations.StaStoresAccumulator := fun addr s =>
  ⟨decode_packByte .sta addr, execResult (.sta addr) s, exec_eq_execResult (.sta addr) s, execResult_sta_frame addr s,
    fun b => memRead_execResult_sta addr b s⟩

/-- Settles O3: LDI's answer is the zero-extended literal in A, and Stage 3 checks a literal's value before it packs it. -/
theorem ldiLoadsImmediate : Obligations.LdiLoadsImmediate := by
  refine ⟨fun imm s => ⟨decode_packByte .ldi imm, ?_⟩, fun labels t ht hv => ?_⟩
  · rw [← zext8_eq_append]
    exact exec_eq_execResult (.ldi imm) s
  · exact resolveOperand_outOfRange (operandNumber_immediate_of_decimal labels ht) hv

/-- Settles O4: 0x50 is OUT's opcode over the field 0, and OUT's answer is A in the latch with PC advanced. -/
theorem outLatchesAccumulator : Obligations.OutLatchesAccumulator :=
  ⟨decode_packByte .out 0x0#4, fun s => exec_eq_execResult .out s⟩

end Sys2Proof.Machine

/-! PROOFS. The arithmetic family (41_arithmetic.md): the carry, the borrow and the zero flag in exact arithmetic, and what
ADD and SUB do. -/

namespace Sys2Proof.Machine

/-! ### CarryFlag as the overflow of 8-bit arithmetic -/

/-- The carry of ADD is the unsigned overflow of 8-bit addition (R422). -/
theorem addCarry_eq_uaddOverflow (a m : Byte) : addCarry a m = BitVec.uaddOverflow a m := rfl

/-- The borrow of SUB is the unsigned overflow of 8-bit subtraction (R422). -/
theorem subBorrow_eq_usubOverflow (a m : Byte) : subBorrow a m = BitVec.usubOverflow a m := rfl

/-! ### ZeroFlag in exact arithmetic -/

theorem isZero_eq_decide_toNat (r : Byte) : isZero r = decide (r.toNat = 0) := by
  rw [Bool.eq_iff_iff, isZero_iff, decide_eq_true_iff, BitVec.toNat_eq]
  rfl

theorem isZero_add (a m : Byte) : isZero (a + m) = decide ((a.toNat + m.toNat) % 256 = 0) := by
  rw [isZero_eq_decide_toNat, BitVec.toNat_add]

/-- The difference wraps: as an integer it is the exact difference mod 256 (R421). -/
theorem toNat_sub_eq_emod (a m : Byte) : ((a - m).toNat : Int) = ((a.toNat : Int) - m.toNat) % 256 := by
  have ha := a.isLt
  have hm := m.isLt
  rw [BitVec.toNat_sub]
  omega

theorem isZero_sub (a m : Byte) : isZero (a - m) = decide (((a.toNat : Int) - m.toNat) % 256 = 0) := by
  rw [isZero_eq_decide_toNat, decide_eq_decide, ← toNat_sub_eq_emod, Int.natCast_eq_zero]

/-- SUB's result is the two's-complement difference: complement, increment and add (R422). -/
theorem sub_eq_add_complement (a m : Byte) : a - m = a + (~~~m + 1) := by
  rw [BitVec.sub_eq_add_neg, BitVec.neg_eq_not_add]
  rfl

/-! ### The obligations -/

/-- Settles O11: A is the 8-bit result, and each flag is a law of 8-bit arithmetic about A and the memory operand. -/
theorem aluFlagLaw : Obligations.AluFlagLaw := by
  intro addr s
  refine ⟨⟨execResult (.add addr) s, exec_eq_execResult _ s, ?_, ?_, ?_⟩,
    execResult (.sub addr) s, exec_eq_execResult _ s, ?_, ?_, ?_⟩
  · exact BitVec.toNat_add s.A (s.memRead addr)
  · exact Bool.eq_iff_iff.1 (addCarry_eq_uaddOverflow s.A (s.memRead addr))
  · exact isZero_iff (s.A + s.memRead addr)
  · exact sub_eq_add_complement s.A (s.memRead addr)
  · exact Bool.eq_iff_iff.1 (subBorrow_eq_usubOverflow s.A (s.memRead addr))
  · exact isZero_iff (s.A - s.memRead addr)

/-- Settles O5: 0010 is ADD's opcode, and ADD's answer is the exact sum mod 256 with its flags. -/
theorem addResultAndFlags : Obligations.AddResultAndFlags := by
  refine fun addr s => ⟨decode_append .add addr, ?_⟩
  rw [exec_eq_execResult, ← isZero_add]
  simp only [execResult, ← sumByte_eq]
  rfl

/-- Settles O6: SUB's answer is the exact difference mod 256 with its flags. -/
theorem subResultAndFlags : Obligations.SubResultAndFlags := by
  refine fun addr s => ⟨decode_packByte .sub addr, ?_⟩
  rw [exec_eq_execResult, ← isZero_sub]
  simp only [execResult, ← differenceByte_eq]
  rfl

end Sys2Proof.Machine

/-! PROOFS. The control family (42_control.md): where NOP, JMP, JC and HLT leave PC, and what a halted engine does. -/

namespace Sys2Proof.Machine

/-- The PC advance wraps at the last address (30_encoding.md R308). -/
theorem execResult_nop_of_PC_eq_15 {s : State} (h : s.PC = 15#4) : execResult .nop s = { s with PC := 0#4 } := by
  have wraps : s.PC + 1 = 0#4 := by rw [h]; rfl
  exact congrArg (fun p => { s with PC := p }) wraps

/-- After HLT every later step is a no-op (60_exceptions.md R602). -/
theorem step_execResult_hlt (s : State) : step (execResult .hlt s) = .next (execResult .hlt s) :=
  step_of_stopped (stopped_of_halted rfl)

/-- After HLT `run` returns Halted before any step, whatever the budget (60_exceptions.md R605). -/
theorem run_execResult_hlt {s : State} (n : Nat) (hf : s.fault = false) :
    run n (execResult .hlt s) = .next ⟨.halted, 0, execResult .hlt s⟩ :=
  runFrom_halted hf rfl

/-! ### The obligations -/

/-- Settles O7: NOP's answer is the PC advance alone, which wraps at 15. -/
theorem nopOnlyAdvances : Obligations.NopOnlyAdvances := by
  refine ⟨decode_packByte .nop 0x0#4, exec_eq_execResult .nop, fun s h => ?_⟩
  rw [← execResult_nop_of_PC_eq_15 h]
  exact exec_eq_execResult .nop s

/-- Settles O8: JMP's answer is its operand in PC, and Stage 3 refuses an operand that needs more than 4 bits. -/
theorem jmpSetsProgramCounter : Obligations.JmpSetsProgramCounter :=
  ⟨fun addr s => ⟨decode_packByte .jmp addr, exec_eq_execResult (.jmp addr) s⟩,
    fun _ _ _ hn h => resolveOperand_outOfRange hn h⟩

/-- Settles O9: JC's answer chooses PC by the old CarryFlag, and Stage 3 refuses an operand that needs more than 4 bits. -/
theorem jcFollowsCarryFlag : Obligations.JcFollowsCarryFlag :=
  ⟨fun addr s => ⟨decode_packByte .jc addr, exec_eq_execResult (.jc addr) s⟩,
    fun _ _ _ hn h => resolveOperand_outOfRange hn h⟩

/-- Settles O10: HLT's answer is a stopped state, which a step keeps and which `run` reports as Halted. -/
theorem hltHaltsAndAdvances : Obligations.HltHaltsAndAdvances :=
  ⟨decode_packByte .hlt 0x0#4, fun s =>
    ⟨exec_eq_execResult .hlt s, step_execResult_hlt s, fun n hf => run_execResult_hlt n hf⟩⟩

end Sys2Proof.Machine

/-! PROOFS. The assembler (45_assembler.md): what Stage 2 does with a mnemonic and with a token that is no mnemonic and no
label definition, and the Immediate operand of Stage 3. -/

namespace Sys2Proof.Machine

/-! ### Stage 2 on one token -/

/-- A mnemonic of kind None consumes itself alone (R516). -/
theorem parseLine_mnemonic_noOperand {t : Token} {m : Mnemonic} (hm : mnemonicOf t = some m)
    (hk : m.operandKind = .none) (n : Nat) (rest : List Token) (p : ParseState) :
    parseLine n (t :: rest) p = parseLine n rest (p.addInstr m none n) := by
  rw [parseLine.eq_def]
  simp only [hm, hk]

/-- A mnemonic that needs an operand is a syntax error at the end of its line (R516). -/
theorem parseLine_mnemonic_missingOperand {t : Token} {m : Mnemonic} (hm : mnemonicOf t = some m)
    (hk : m.operandKind ≠ .none) (n : Nat) (p : ParseState) : parseLine n [t] p = .error ⟨n, .syntaxError⟩ := by
  rw [parseLine.eq_def]
  cases hkind : m.operandKind with
  | addressOrLabel => simp only [hm, hkind]
  | immediate => simp only [hm, hkind]
  | none => exact absurd hkind hk

/-- A mnemonic that needs an operand takes the next token as it stands (R516). -/
theorem parseLine_mnemonic_operand {t : Token} {m : Mnemonic} (hm : mnemonicOf t = some m)
    (hk : m.operandKind ≠ .none) (n : Nat) (o : Token) (rest : List Token) (p : ParseState) :
    parseLine n (t :: o :: rest) p = parseLine n rest (p.addInstr m (some o) n) := by
  rw [parseLine.eq_def]
  cases hkind : m.operandKind with
  | addressOrLabel => simp only [hm, hkind]
  | immediate => simp only [hm, hkind]
  | none => exact absurd hkind hk

/-- What neither case of Stage 2 takes is a syntax error (R518). -/
theorem parseLine_otherToken {t : Token} (hm : mnemonicOf t = none) (hl : isLabelDef t = false) (n : Nat)
    (rest : List Token) (p : ParseState) : parseLine n (t :: rest) p = .error ⟨n, .syntaxError⟩ := by
  rw [parseLine.eq_def]
  simp [hm, hl]

/-! ### Mnemonics and label definitions -/

theorem getLast?_mnemonicName_ne_colon (m : Mnemonic) : (mnemonicName m).getLast? ≠ some ':' := by
  cases m <;> decide

theorem getLast?_eq_colon_of_isLabelDef {t : Token} (h : isLabelDef t = true) : t.getLast? = some ':' := by
  rw [isLabelDef, Bool.and_eq_true] at h
  exact eq_of_beq h.2

/-- Case folding keeps the final colon of a label definition, and no mnemonic's spelling ends in one. -/
theorem isLabelDef_eq_false_of_mnemonicOf {t : Token} {m : Mnemonic} (hm : mnemonicOf t = some m) :
    isLabelDef t = false := by
  refine Bool.eq_false_iff.2 fun hl => getLast?_mnemonicName_ne_colon m ?_
  rw [← foldCase_of_mnemonicOf hm, List.getLast?_map, getLast?_eq_colon_of_isLabelDef hl]
  rfl

/-! ### The Immediate operand -/

theorem resolveOperand_error {labels : List (Token × Nat)} {kind : OperandKind} {o : Option Token} {e : ErrorKind}
    (he : operandNumber labels kind o = .error e) : resolveOperand labels kind o = .error e := by
  rw [resolveOperand, he]

/-- An operand whose number fits the field keeps its value there (R531, R532). -/
theorem resolveOperand_inRange {labels : List (Token × Nat)} {kind : OperandKind} {o : Option Token} {v : Nat}
    (hv : operandNumber labels kind o = .ok v) (h : v ≤ 15) :
    ∃ k, resolveOperand labels kind o = .ok k ∧ k.toNat = v := by
  refine ⟨BitVec.ofNat 4 v, ?_, Nat.mod_eq_of_lt (Nat.lt_succ_of_le h)⟩
  simp [resolveOperand, hv, Nat.not_lt.2 h]

theorem operandNumber_immediate_of_not_decimal (labels : List (Token × Nat)) {t : Token} (h : isDecimal t = false) :
    operandNumber labels .immediate (some t) = .error .invalidLiteral := by
  simp [operandNumber, h]

/-! ### The obligations -/

/-- Settles O54: no spelling of a mnemonic ends in a colon, and past the two classes Stage 2 has one answer. -/
theorem parseOfOtherToken : Obligations.ParseOfOtherToken :=
  ⟨fun n _ rest p hm hl => parseLine_otherToken hm hl n rest p, fun _ _ hm => isLabelDef_eq_false_of_mnemonicOf hm,
    by decide⟩

/-- Settles O52, one equation of Stage 2 for each of the three cases. -/
theorem parseOfMnemonic : Obligations.ParseOfMnemonic := fun n _ _ rest p hm =>
  ⟨fun hk => parseLine_mnemonic_noOperand hm hk n rest p,
    fun hk => ⟨parseLine_mnemonic_missingOperand hm hk n p, fun o => parseLine_mnemonic_operand hm hk n o rest p⟩⟩

/-- Settles O56: the literal's check comes before the range check, and a number in range is kept. -/
theorem immediateOperandRule : Obligations.ImmediateOperandRule := fun labels _ =>
  ⟨fun ht => resolveOperand_error (operandNumber_immediate_of_not_decimal labels ht),
    fun ht hv => resolveOperand_outOfRange (operandNumber_immediate_of_decimal labels ht) hv,
    fun ht hv => resolveOperand_inRange (operandNumber_immediate_of_decimal labels ht) hv⟩

end Sys2Proof.Machine

/-! PROOFS. Exceptions (60_exceptions.md): what a halted engine's step does, and that every state has its one next state. -/

namespace Sys2Proof.Machine

/-! ### The obligations -/

/-- Settles O23: a halted engine is stopped, and a stopped engine's step answers its own state. -/
theorem haltedStepChangesNothing : Obligations.HaltedStepChangesNothing :=
  fun _ h => step_of_stopped (stopped_of_halted h)

/-- Settles O25: the one next state is `stepResult`, which `step` answers in every state. -/
theorem stepIsTotal : Obligations.StepIsTotal :=
  fun s => ⟨stepResult s, step_eq_stepResult s, fun _ ho => ho.symm.trans (step_eq_stepResult s)⟩

end Sys2Proof.Machine

/-! PROOFS. Reset (70_reset_and_hazards.md): what each host operation answers on an engine, and that `load` alone replaces
the state of a halted one. -/

namespace Sys2Proof.Machine

/-! ### A host operation's answer -/

/-- `load` is accepted on every engine, loaded before or not (R701). -/
theorem hostCall_load (image : Image) (e : Engine) :
    hostCall (.load image) e = .next (.loaded (load image), .done) := by
  cases e <;> rfl

theorem hostCall_step_of_step {s t : State} (h : step s = .next t) :
    hostCall .step (.loaded s) = .next (.loaded t, .done) := by
  simp only [hostCall, callLoaded, h]

theorem hostCall_run_of_run {n : Nat} {s : State} {r : RunResult} (h : run n s = .next r) :
    hostCall (.run n) (.loaded s) = .next (.loaded r.state, .ran r.outcome r.steps) := by
  simp only [hostCall, callLoaded, h]

/-- `hostCall_of_stopped` says what an answer is on a stopped engine; this says that there is one. -/
theorem exists_hostCall_of_stopped {s : State} {c : HostCall} (hs : s.stopped = true) (hc : ∀ image, c ≠ .load image) :
    ∃ r, hostCall c (.loaded s) = .next (.loaded s, r) := by
  cases c with
  | load image => exact absurd rfl (hc image)
  | step => exact ⟨_, hostCall_step_of_step (step_of_stopped hs)⟩
  | run n =>
    obtain ⟨o, ho⟩ := run_of_stopped hs n
    exact ⟨_, hostCall_run_of_run ho⟩
  | readBoundary => exact ⟨_, rfl⟩

/-! ### The obligations -/

/-- Settles O38: `load` asks nothing of the engine, resets Halted, and every other operation finds a halted engine stopped. -/
theorem loadAtAnyTimeReplacesState : Obligations.LoadAtAnyTimeReplacesState :=
  ⟨fun e image => hostCall_load image e, load_halted, fun _ _ hs hc => exists_hostCall_of_stopped (stopped_of_halted hs) hc⟩

end Sys2Proof.Machine

/-! PROOFS. The encoding (30_encoding.md): what the decoder answers on every byte, and its two round trips with the
encoder. -/

namespace Sys2Proof

/-! ### The decoder's answer on every byte -/

/-- The decoder has two answers: the instruction of the mnemonic whose opcode is the byte's, or the rejection where no
mnemonic has it (R311). -/
theorem decode_cases (b : Byte) :
    (∃ m, opcodeOf m = opcodeField b ∧ decode b = .instr (Instr.ofField m (operandField b))) ∨
    (decode b = .unassigned b ∧ ∀ m, opcodeOf m ≠ opcodeField b) := by
  cases hd : decode b with
  | instr i =>
    obtain ⟨m, hm, rfl⟩ := decodeWith_eq_instr hd
    exact Or.inl ⟨m, hm, rfl⟩
  | unassigned c =>
    obtain ⟨rfl, hm⟩ := decodeWith_eq_unassigned hd
    exact Or.inr ⟨rfl, hm⟩

/-- The opcodes of the table are 0x0 to 0x8 and 0xF (R303). -/
theorem exists_opcodeOf_eq_iff (op : Nibble) :
    (∃ m ∈ Mnemonic.all, opcodeOf m = op) ↔ ¬ (0x9 ≤ op.toNat ∧ op.toNat ≤ 0xE) := by
  revert op
  decide

/-- A byte is rejected exactly where its opcode is 0x9 to 0xE (R305, R311). -/
theorem decode_eq_unassigned_iff (b : Byte) :
    decode b = .unassigned b ↔ 0x9 ≤ (opcodeField b).toNat ∧ (opcodeField b).toNat ≤ 0xE := by
  rw [← not_iff_not, ← exists_opcodeOf_eq_iff]
  obtain ⟨m, hm, hd⟩ | ⟨hd, hm⟩ := decode_cases b
  · simp only [hd, reduceCtorEq, not_false_eq_true, true_iff]
    exact ⟨m, m.mem_all, hm⟩
  · simp [hd, hm]

/-- The opcode is the byte's high hexadecimal digit (R301). -/
theorem toNat_opcodeField (b : Byte) : (opcodeField b).toNat = b.toNat / 16 := by
  have hb := b.isLt
  simp only [opcodeField, BitVec.extractLsb'_toNat, Nat.shiftRight_eq_div_pow]
  omega

/-! ### The round trips -/

theorem assignment_injective_of_wf {opc : Mnemonic → Nibble} (h : assignmentWf opc = true) : Function.Injective opc := by
  simp only [assignmentWf, Bool.and_eq_true] at h
  obtain ⟨⟨hinj, -⟩, -⟩ := h
  exact (assignmentInjective_iff opc).1 hinj

/-- Decoding an encoded instruction gives it back, wherever different mnemonics have different opcodes (R310). -/
theorem decodeWith_encodeWith {opc : Mnemonic → Nibble} (hopc : Function.Injective opc) (i : Instr) :
    decodeWith opc (encodeWith opc i) = .instr i := by
  rw [encodeWith, decodeWith_packByte hopc, Instr.ofField_mnemonic_operand]

/-- The operand field of a None-kind mnemonic is dropped (R309). -/
theorem ofField_of_noneKind {m : Mnemonic} (h : m.operandKind = .none) (j k : Nibble) :
    Instr.ofField m j = Instr.ofField m k := by
  cases m with
  | nop | out | hlt => rfl
  | _ => cases h

/-! ### The obligations -/

/-- Settles O30: the assignments that D19 allows are injective, and so is be8's own. -/
theorem decodeEncodeForEveryAssignment : Obligations.DecodeEncodeForEveryAssignment :=
  ⟨fun _ hopc i => decodeWith_encodeWith (assignment_injective_of_wf hopc) i,
    fun i => decodeWith_encodeWith opcodeOf_injective i⟩

/-- Settles O31: the decoder answers the mnemonic of the byte's opcode, and that mnemonic keeps or drops the low nibble. -/
theorem encodeOfDecodedByte : Obligations.EncodeOfDecodedByte := by
  intro opc b i h
  obtain ⟨m, hm, rfl⟩ := decodeWith_eq_instr h
  rw [encodeWith, Instr.operand_ofField, Instr.mnemonic_ofField, hm]
  rfl

/-- Settles O32: the unassigned opcodes 0x9 to 0xE are the high digits of the bytes 0x90 to 0xEF. -/
theorem decodeIsTotal : Obligations.DecodeIsTotal := by
  intro b
  have hrange : decode b = .unassigned b ↔ 0x90 ≤ b.toNat ∧ b.toNat ≤ 0xEF := by
    rw [decode_eq_unassigned_iff, toNat_opcodeField]
    omega
  refine ⟨hrange, fun hb => ?_⟩
  obtain hinstr | ⟨hd, -⟩ := decode_cases b
  · exact hinstr
  · exact absurd (hrange.1 hd) hb

/-- Settles O33: each byte is its mnemonic's opcode packed with its operand. -/
theorem scenarioBytesDecode : Obligations.ScenarioBytesDecode :=
  ⟨decode_packByte .lda 4#4, decode_packByte .add 5#4, decode_packByte .out 0x0#4, decode_packByte .hlt 0x0#4⟩

/-- Settles O34: each byte is its mnemonic's opcode packed with its operand. -/
theorem decidedOpcodeValues : Obligations.DecidedOpcodeValues :=
  ⟨decode_packByte .nop 0x0#4, decode_packByte .sub 13#4, decode_packByte .sta 15#4, decode_packByte .ldi 5#4,
    decode_packByte .jmp 3#4, decode_packByte .jc 7#4⟩

/-- Settles O35: the packed byte decodes to the mnemonic's instruction, which drops the low nibble. -/
theorem operandBitsOfNoneKindIgnored : Obligations.OperandBitsOfNoneKindIgnored := by
  intro m k hm
  rw [decode_packByte, ofField_of_noneKind hm k 0x0#4]

end Sys2Proof

/-! PROOFS. The frame of every instruction, the step, and the engine's invariant (10_state.md section 7, 60_exceptions.md). -/

namespace Sys2Proof.Machine

/-! ### The frame of the execute phase -/

theorem execResult_memory_of_not_sta {i : Instr} (s : State) (h : ∀ addr, i ≠ .sta addr) :
    (execResult i s).memory = s.memory := by
  cases i with
  | sta addr => exact absurd rfl (h addr)
  | _ => rfl

/-- B is written where the parameter says so alone, and it says nowhere (decision D4). -/
theorem execResult_B (i : Instr) (s : State) : (execResult i s).B = s.B := by
  cases i <;> rfl

theorem execResult_IR (i : Instr) (s : State) : (execResult i s).IR = s.IR := by
  cases i <;> rfl

theorem execResult_fault (i : Instr) (s : State) : (execResult i s).fault = s.fault := by
  cases i <;> rfl

theorem execResult_halted_of_ne_hlt {i : Instr} (s : State) (h : i ≠ .hlt) : (execResult i s).halted = s.halted := by
  rw [Bool.eq_iff_iff, execResult_halted_iff, or_iff_left h]

/-- Every instruction keeps the memory canonical. -/
theorem wf_execResult (i : Instr) {s : State} (h : Memory.wf s.memory = true) :
    Memory.wf (execResult i s).memory = true := by
  cases i with
  | sta addr => exact wf_memWrite s addr s.A h
  | _ => exact h

/-! ### A step of a running engine -/

theorem stepResult_of_instr {s : State} {i : Instr} (hs : s.stopped = false) (hd : decode s.fetchByte = .instr i) :
    stepResult s = execResult i s.fetch := by
  simp [stepResult, hs, hd]

theorem stepResult_of_unassigned {s : State} {b : Byte} (hs : s.stopped = false)
    (hd : decode s.fetchByte = .unassigned b) : stepResult s = raiseIllegalOpcode s.fetch := by
  simp [stepResult, hs, hd]

theorem stepResult_of_stopped {s : State} (hs : s.stopped = true) : stepResult s = s := by
  simp [stepResult, hs]

theorem eq_stepResult_of_step {s t : State} (h : step s = .next t) : t = stepResult s := by
  rw [step_eq_stepResult, Host.Outcome.next.injEq] at h
  exact h.symm

/-- A running engine's step leaves the fetched byte in IR (10_state.md R105). -/
theorem stepResult_IR_of_running {s : State} (hs : s.stopped = false) : (stepResult s).IR = s.fetchByte := by
  cases hd : decode s.fetchByte with
  | instr i => rw [stepResult_of_instr hs hd, execResult_IR, State.fetch_IR]
  | unassigned b => rw [stepResult_of_unassigned hs hd, raiseIllegalOpcode_IR, State.fetch_IR]

theorem stopped_of_fault {s : State} (h : s.fault = true) : s.stopped = true := by
  simp [State.stopped, h]

/-- A step sets Fault exactly where it fetches an unassigned opcode (10_state.md R111). -/
theorem step_sets_fault_iff {s t : State} (h : step s = .next t) (hs : s.fault = false) :
    t.fault = true ↔ s.halted = false ∧ decode s.fetchByte = .unassigned s.fetchByte := by
  obtain ⟨hstop, rfl⟩ | ⟨-, i, hi, rfl⟩ | ⟨hrun, b, hb, rfl⟩ := step_cases h
  · have hh : t.halted = true := by simpa [State.stopped, hs] using hstop
    simp [hs, hh]
  · simp [execResult_fault, hs, hi]
  · have hh : s.halted = false := ((stopped_eq_false_iff s).1 hrun).1
    obtain ⟨rfl, -⟩ := decodeWith_eq_unassigned hb
    simp [hh, hb]

/-- A step changes a stopped engine in nothing, so each stop flag stays. -/
theorem step_keeps_stopFlags {s t : State} (h : step s = .next t) :
    (s.halted = true → t.halted = true) ∧ (s.fault = true → t.fault = true) := by
  rw [eq_stepResult_of_step h]
  refine ⟨fun hh => ?_, fun hf => ?_⟩
  · rwa [stepResult_of_stopped (stopped_of_halted hh)]
  · rwa [stepResult_of_stopped (stopped_of_fault hf)]

/-! ### The invariant -/

/-- An instruction on the fetched state of a running engine keeps the invariant: no fault is there, and a halt is HLT's. -/
theorem inv_execResult_fetch {s : State} {i : Instr} (h : s.Inv) (hs : s.stopped = false)
    (hd : decode s.fetchByte = .instr i) : (execResult i s.fetch).Inv := by
  obtain ⟨hh, hf⟩ := (stopped_eq_false_iff s).1 hs
  have nofault : (execResult i s.fetch).fault ≠ true := by simp [execResult_fault, hf]
  refine ⟨wf_execResult i h.memoryCanonical, fun both => nofault both.2, fun hlatch => ?_,
    fun hfault => absurd hfault nofault, fun hhalt => ?_⟩
  · rw [execResult_B]
    exact h.bStaysZero hlatch
  · have hi : i = .hlt := by simpa [execResult_halted_iff, hh] using hhalt
    rw [execResult_IR, State.fetch_IR, hd, hi]

/-- IllegalOpcode on a running engine keeps the invariant: the fetch has left the offending byte in IR and PC at it. -/
theorem inv_raiseIllegalOpcode_fetch {s : State} {b : Byte} (h : s.Inv) (hs : s.stopped = false)
    (hd : decode s.fetchByte = .unassigned b) : (raiseIllegalOpcode s.fetch).Inv := by
  obtain ⟨hh, -⟩ := (stopped_eq_false_iff s).1 hs
  obtain ⟨rfl, -⟩ := decodeWith_eq_unassigned hd
  have nohalt : (raiseIllegalOpcode s.fetch).halted ≠ true := by simp [hh]
  exact ⟨h.memoryCanonical, fun both => nohalt both.1, h.bStaysZero, fun _ => ⟨hd, rfl⟩,
    fun hhalt => absurd hhalt nohalt⟩

theorem inv_load (image : Image) : (load image).Inv where
  memoryCanonical := wf_imageMemory image
  oneStopState := nofun
  bStaysZero _ := rfl
  faultRecorded := nofun
  haltRecorded := nofun

/-! ### What `load` leaves -/

theorem byte_zeroImage (a : Addr) : Image.byte zeroImage a = unlistedByte := by
  simp [Image.byte, zeroImage, unlistedByte]

/-- The canonical memory of 16 zero bytes lists nothing. -/
theorem imageMemory_zeroImage : imageMemory zeroImage = [] :=
  Memory.ext_read (wf_imageMemory zeroImage) Memory.wf_nil fun a =>
    (read_imageMemory zeroImage a).trans (byte_zeroImage a)

theorem load_zeroImage : load zeroImage = State.reset :=
  congrArg (fun m => { State.reset with memory := m }) imageMemory_zeroImage

/-! ### The obligations -/

/-- Settles O28, by the cases of a step: a stopped engine stays, an instruction runs, or IllegalOpcode is raised. -/
theorem stepKeepsInvariant : Obligations.StepKeepsInvariant := by
  intro s t h hstep
  obtain ⟨-, rfl⟩ | ⟨hs, i, hi, rfl⟩ | ⟨hs, b, hb, rfl⟩ := step_cases hstep
  · exact h
  · exact inv_execResult_fetch h hs hi
  · exact inv_raiseIllegalOpcode_fetch h hs hb

/-- Settles O29: `load` leaves no stop flag set and a canonical memory, and the reset state is a `load`. -/
theorem loadMeetsInvariant : Obligations.LoadMeetsInvariant :=
  ⟨inv_load, load_zeroImage ▸ inv_load zeroImage⟩

/-- Settles O18: of a step's cases only IllegalOpcode sets Fault, and a faulted engine is stopped, so only `load` changes
it. -/
theorem faultFlagAccess : Obligations.FaultFlagAccess := by
  refine ⟨fun s t h hs => step_sets_fault_iff h hs, fun s c e r hs h => ?_,
    fun s hs => step_of_stopped (stopped_of_fault hs), fun n s hs => runFrom_fault hs, fun _ => rfl⟩
  obtain ⟨image, hc, he⟩ | he := hostCall_of_stopped (stopped_of_fault hs) h
  · exact Or.inl ⟨image, hc, he, load_fault image⟩
  · exact Or.inr he

/-- Settles O19, one frame lemma for each field. -/
theorem instructionFrame : Obligations.InstructionFrame := by
  intro i s t h
  rw [eq_execResult_of_exec h]
  refine ⟨fun hi b => ?_, execResult_A_of_not_writer s, execResult_B i s, execResult_flags_of_not_addSub s,
    fun hi => execResult_OUT_of_ne_out s ?_, fun hi => execResult_halted_of_ne_hlt s ?_, execResult_IR i s,
    execResult_fault i s⟩
  · have hmem := execResult_memory_of_not_sta s (i := i) fun addr hsta => hi (congrArg Instr.mnemonic hsta)
    rw [State.memRead, hmem, State.memRead]
  · exact fun hout => hi (congrArg Instr.mnemonic hout)
  · exact fun hhlt => hi (congrArg Instr.mnemonic hhlt)

/-- Settles O20: STA's answer differs in memory and PC alone, and a read after the write tells the two addresses apart. -/
theorem staFrame : Obligations.StaFrame := by
  intro addr s t h
  obtain rfl := eq_execResult_of_exec h
  refine ⟨?_, fun b hb => ?_, rfl, rfl, rfl, rfl, rfl, rfl, rfl, rfl⟩
  · rw [memRead_execResult_sta, if_pos rfl]
  · rw [memRead_execResult_sta, if_neg hb]

/-- Settles O22: on a running engine the step is the execute phase after the fetch. -/
theorem stepRunsDecodedInstruction : Obligations.StepRunsDecodedInstruction := by
  intro s i hh hf hd
  rw [step_eq_stepResult, stepResult_of_instr ((stopped_eq_false_iff s).2 ⟨hh, hf⟩) hd]
  exact (exec_eq_execResult i s.fetch).symm

/-- Settles O24: the decoder rejects the opcodes 0x9 to 0xE, a rejected byte raises IllegalOpcode after the fetch, and no
instruction writes Fault. -/
theorem unassignedOpcodeFaults : Obligations.UnassignedOpcodeFaults := by
  refine ⟨fun s hh hf hlo hhi => ?_, fun i s t h => ?_⟩
  · have hd : decode s.fetchByte = .unassigned s.fetchByte := (decode_eq_unassigned_iff _).2 ⟨hlo, hhi⟩
    rw [step_eq_stepResult, stepResult_of_unassigned ((stopped_eq_false_iff s).2 ⟨hh, hf⟩) hd]
    rfl
  · rw [eq_execResult_of_exec h]
    exact execResult_fault i s

/-- Settles O27: STA leaves the engine running with A at its address, and the next step's IR is the byte it fetches. -/
theorem storeSeenByNextFetch : Obligations.StoreSeenByNextFetch := by
  intro s t u addr hh hf hd hst htu
  have ht := eq_stepResult_of_step hst
  rw [stepResult_of_instr ((stopped_eq_false_iff s).2 ⟨hh, hf⟩) hd] at ht
  have stored : t.memRead addr = s.A := by
    rw [ht, memRead_execResult_sta, if_pos rfl, State.fetch_A]
  refine ⟨by rw [ht]; rfl, by rw [ht]; rfl, stored, fun hpc => ?_⟩
  have running : t.stopped = false := by
    rw [ht, stopped_eq_false_iff]
    exact ⟨hh, hf⟩
  rw [eq_stepResult_of_step htu, stepResult_IR_of_running running, State.fetchByte, hpc, stored]

/-- Settles O36: `load` resets every register and flag, and its memory reads as the image. -/
theorem loadInstallsImageAndResets : Obligations.LoadInstallsImageAndResets := fun image =>
  ⟨load_memRead image, load_A image, load_B image, load_IR image, load_OUT image, load_PC image, load_halted image,
    load_carryFlag image, load_zeroFlag image, load_fault image⟩

/-- Settles O37: the zero image's canonical memory is the empty one. -/
theorem resetIsLoadOfZeroImage : Obligations.ResetIsLoadOfZeroImage := load_zeroImage

end Sys2Proof.Machine

/-! PROOFS. `run` in closed form (60_exceptions.md R605): a step changes nothing on a stopped engine, so the state after a
budget of `n` is what `n` steps give, and the stop flags there say the outcome. -/

namespace Sys2Proof.Machine

/-! ### The closed form -/

/-- The outcome that the stop flags of a run's final state say, Fault first (R605, R613). -/
def State.stopOutcome (s : State) : RunOutcome :=
  if s.fault then .illegalOpcode else if s.halted then .halted else .stepBudgetExhausted

/-- The number of steps a run takes with a budget: a stopped engine takes none. -/
def stepsTaken : Nat → State → Nat
  | 0, _ => 0
  | n + 1, s => if s.stopped then 0 else stepsTaken n (stepResult s) + 1

theorem stopOutcome_eq_illegalOpcode_iff (s : State) : s.stopOutcome = .illegalOpcode ↔ s.fault = true := by
  cases hf : s.fault <;> cases hh : s.halted <;> simp [State.stopOutcome, hf, hh]

theorem stopOutcome_eq_halted_iff (s : State) : s.stopOutcome = .halted ↔ s.fault = false ∧ s.halted = true := by
  cases hf : s.fault <;> cases hh : s.halted <;> simp [State.stopOutcome, hf, hh]

theorem stopOutcome_eq_exhausted_iff (s : State) :
    s.stopOutcome = .stepBudgetExhausted ↔ s.fault = false ∧ s.halted = false := by
  cases hf : s.fault <;> cases hh : s.halted <;> simp [State.stopOutcome, hf, hh]

theorem stopOutcome_eq_exhausted_iff_running (s : State) : s.stopOutcome = .stepBudgetExhausted ↔ s.stopped = false := by
  rw [stopOutcome_eq_exhausted_iff, stopped_eq_false_iff, and_comm]

theorem stepsTaken_of_stopped {s : State} (hs : s.stopped = true) (n : Nat) : stepsTaken n s = 0 := by
  cases n with
  | zero => rfl
  | succ n => simp [stepsTaken, hs]

theorem stepsTaken_succ_of_running {s : State} (hs : s.stopped = false) (n : Nat) :
    stepsTaken (n + 1) s = stepsTaken n (stepResult s) + 1 := by
  simp [stepsTaken, hs]

/-- Any number of steps changes nothing on a stopped engine. -/
theorem iterate_stepResult_of_stopped {s : State} (hs : s.stopped = true) (n : Nat) : stepResult^[n] s = s :=
  Function.iterate_fixed (stepResult_of_stopped hs) n

theorem runFrom_of_stopped {s : State} (hs : s.stopped = true) (k n : Nat) :
    runFrom k n s = .next ⟨s.stopOutcome, k, s⟩ := by
  cases hf : s.fault with
  | true => rw [runFrom_fault hf, (stopOutcome_eq_illegalOpcode_iff s).2 hf]
  | false =>
    have hh : s.halted = true := by simpa [State.stopped, hf] using hs
    rw [runFrom_halted hf hh, (stopOutcome_eq_halted_iff s).2 ⟨hf, hh⟩]

theorem runFrom_eq (k n : Nat) (s : State) :
    runFrom k n s = .next ⟨(stepResult^[n] s).stopOutcome, k + stepsTaken n s, stepResult^[n] s⟩ := by
  induction n generalizing k s with
  | zero =>
    cases hs : s.stopped with
    | true => exact runFrom_of_stopped hs k 0
    | false =>
      obtain ⟨hh, hf⟩ := (stopped_eq_false_iff s).1 hs
      rw [runFrom_zero hf hh, Function.iterate_zero_apply, (stopOutcome_eq_exhausted_iff s).2 ⟨hf, hh⟩]
      rfl
  | succ n ih =>
    cases hs : s.stopped with
    | true => rw [runFrom_of_stopped hs, stepsTaken_of_stopped hs, iterate_stepResult_of_stopped hs, Nat.add_zero]
    | false =>
      obtain ⟨hh, hf⟩ := (stopped_eq_false_iff s).1 hs
      rw [runFrom_succ hf hh, ih, stepsTaken_succ_of_running hs, Function.iterate_succ_apply, Nat.add_right_comm,
        Nat.add_assoc]

/-- What `run` does, said once. -/
theorem run_eq (n : Nat) (s : State) :
    run n s = .next ⟨(stepResult^[n] s).stopOutcome, stepsTaken n s, stepResult^[n] s⟩ := by
  rw [run, runFrom_eq, Nat.zero_add]

theorem eq_of_run {n : Nat} {s : State} {r : RunResult} (h : run n s = .next r) :
    r = ⟨(stepResult^[n] s).stopOutcome, stepsTaken n s, stepResult^[n] s⟩ := by
  rw [run_eq, Host.Outcome.next.injEq] at h
  exact h.symm

/-! ### The number of steps -/

theorem stepsTaken_le (n : Nat) (s : State) : stepsTaken n s ≤ n := by
  induction n generalizing s with
  | zero => exact Nat.le_refl 0
  | succ n ih =>
    cases hs : s.stopped with
    | true => simp [stepsTaken_of_stopped hs]
    | false =>
      rw [stepsTaken_succ_of_running hs]
      exact Nat.succ_le_succ (ih (stepResult s))

/-- The steps a run takes bring it to its final state: the rest of the budget changes nothing. -/
theorem iterate_stepsTaken (n : Nat) (s : State) : stepResult^[stepsTaken n s] s = stepResult^[n] s := by
  induction n generalizing s with
  | zero => rfl
  | succ n ih =>
    cases hs : s.stopped with
    | true => rw [iterate_stepResult_of_stopped hs, iterate_stepResult_of_stopped hs]
    | false => rw [stepsTaken_succ_of_running hs, Function.iterate_succ_apply, Function.iterate_succ_apply, ih]

/-- A run that does not stop uses up its budget. -/
theorem stepsTaken_of_running {n : Nat} {s : State} (h : (stepResult^[n] s).stopped = false) : stepsTaken n s = n := by
  induction n generalizing s with
  | zero => rfl
  | succ n ih =>
    cases hs : s.stopped with
    | true =>
      rw [iterate_stepResult_of_stopped hs, hs] at h
      cases h
    | false =>
      rw [Function.iterate_succ_apply] at h
      rw [stepsTaken_succ_of_running hs, ih h]

/-- The steps of a budget cut in two. -/
theorem stepsTaken_add (m n : Nat) (s : State) :
    stepsTaken (m + n) s = stepsTaken m s + stepsTaken n (stepResult^[m] s) := by
  induction m generalizing s with
  | zero => simp [stepsTaken]
  | succ m ih =>
    cases hs : s.stopped with
    | true => simp only [stepsTaken_of_stopped hs, iterate_stepResult_of_stopped hs]
    | false =>
      rw [Nat.add_right_comm, stepsTaken_succ_of_running hs, stepsTaken_succ_of_running hs, ih,
        Function.iterate_succ_apply, Nat.add_right_comm]

theorem iterate_stepResult_add (m n : Nat) (s : State) : stepResult^[m + n] s = stepResult^[n] (stepResult^[m] s) := by
  rw [Nat.add_comm, Function.iterate_add_apply]

/-- The host's machine takes `n` steps from every state. -/
theorem coreRun_eq (n : Nat) (s : State) : Host.Core.run Sys2Proof.core n s = .next (stepResult^[n] s) := by
  induction n generalizing s with
  | zero => rfl
  | succ n ih => rw [coreRun_succ, ih, Function.iterate_succ_apply]

/-! ### What a program cannot see -/

/-- An instruction reads nothing of IR, B, OUT and ZeroFlag, so it keeps the view of two states alike. -/
theorem sameProgramView_execResult (i : Instr) {s u : State} (h : s.SameProgramView u) :
    (execResult i s).SameProgramView (execResult i u) := by
  obtain ⟨hA, hPC, hhalted, hfault, hcarry, hmemory⟩ := h
  cases i <;> simp [State.SameProgramView, execResult, State.memRead, hA, hPC, hhalted, hfault, hcarry, hmemory]

theorem sameProgramView_stopped {s u : State} (h : s.SameProgramView u) : s.stopped = u.stopped := by
  obtain ⟨-, -, hhalted, hfault, -, -⟩ := h
  rw [State.stopped, State.stopped, hhalted, hfault]

theorem sameProgramView_fetchByte {s u : State} (h : s.SameProgramView u) : s.fetchByte = u.fetchByte := by
  obtain ⟨-, hPC, -, -, -, hmemory⟩ := h
  rw [State.fetchByte, State.fetchByte, State.memRead, State.memRead, hPC, hmemory]

theorem sameProgramView_stopOutcome {s u : State} (h : s.SameProgramView u) : s.stopOutcome = u.stopOutcome := by
  obtain ⟨-, -, hhalted, hfault, -, -⟩ := h
  rw [State.stopOutcome, State.stopOutcome, hhalted, hfault]

/-- A step keeps the view of two states alike: they stop alike, fetch the same byte and run the same instruction. -/
theorem sameProgramView_stepResult {s u : State} (h : s.SameProgramView u) :
    (stepResult s).SameProgramView (stepResult u) := by
  cases hs : s.stopped with
  | true =>
    have hu := (sameProgramView_stopped h).symm.trans hs
    rwa [stepResult_of_stopped hs, stepResult_of_stopped hu]
  | false =>
    have hu := (sameProgramView_stopped h).symm.trans hs
    cases hd : decode s.fetchByte with
    | instr i =>
      rw [stepResult_of_instr hs hd, stepResult_of_instr hu (sameProgramView_fetchByte h ▸ hd)]
      exact sameProgramView_execResult i h
    | unassigned b =>
      rw [stepResult_of_unassigned hs hd, stepResult_of_unassigned hu (sameProgramView_fetchByte h ▸ hd)]
      obtain ⟨hA, hPC, hhalted, -, hcarry, hmemory⟩ := h
      exact ⟨hA, hPC, hhalted, rfl, hcarry, hmemory⟩

theorem sameProgramView_iterate (n : Nat) {s u : State} (h : s.SameProgramView u) :
    (stepResult^[n] s).SameProgramView (stepResult^[n] u) := by
  induction n generalizing s u with
  | zero => exact h
  | succ n ih => exact ih (sameProgramView_stepResult h)

theorem sameProgramView_stepsTaken (n : Nat) {s u : State} (h : s.SameProgramView u) :
    stepsTaken n s = stepsTaken n u := by
  induction n generalizing s u with
  | zero => rfl
  | succ n ih => simp only [stepsTaken, sameProgramView_stopped h, ih (sameProgramView_stepResult h)]

/-! ### A jump to itself -/

/-- On a running engine whose byte at PC jumps to PC, a step writes IR and nothing else. -/
theorem stepResult_selfJump {s : State} (hs : s.stopped = false) (hd : decode s.fetchByte = .instr (.jmp s.PC)) :
    stepResult s = { s with IR := s.fetchByte } :=
  stepResult_of_instr hs hd

theorem iterate_selfJump {s : State} (hs : s.stopped = false) (hd : decode s.fetchByte = .instr (.jmp s.PC)) (n : Nat) :
    stepResult^[n] s = { s with IR := if n = 0 then s.IR else s.fetchByte } := by
  induction n with
  | zero => rfl
  | succ n ih =>
    rw [Function.iterate_succ_apply', ih]
    exact stepResult_selfJump (s := { s with IR := if n = 0 then s.IR else s.fetchByte }) hs hd

/-! ### Memories of instructions -/

/-- A step of an engine whose bytes are all instructions raises no fault. -/
theorem stepResult_fault_of_allExecutable {s : State} (h : s.AllExecutable) (hf : s.fault = false) :
    (stepResult s).fault = false := by
  cases hs : s.stopped with
  | true => rwa [stepResult_of_stopped hs]
  | false =>
    obtain ⟨i, hi⟩ := h s.PC
    rwa [stepResult_of_instr hs hi, execResult_fault]

/-- A step changes memory only where it executes an STA. -/
theorem stepResult_memory_of_not_sta {s : State} (h : ∀ addr, decode s.fetchByte ≠ .instr (.sta addr)) :
    (stepResult s).memory = s.memory := by
  cases hs : s.stopped with
  | true => rw [stepResult_of_stopped hs]
  | false =>
    cases hd : decode s.fetchByte with
    | instr i =>
      rw [stepResult_of_instr hs hd]
      exact execResult_memory_of_not_sta s.fetch fun addr hi => h addr (hi ▸ hd)
    | unassigned b => rw [stepResult_of_unassigned hs hd, raiseIllegalOpcode_memory, State.fetch_memory]

/-- A state from which no step can raise a fault: none is there, and every byte is an instruction that stores nothing. -/
structure State.StoreFree (s : State) : Prop where
  nofault : s.fault = false
  executable : s.AllExecutable
  nostore : ∀ a k : Addr, decode (s.memRead a) ≠ .instr (.sta k)

theorem storeFree_stepResult {s : State} (h : s.StoreFree) : (stepResult s).StoreFree := by
  have hmem : ∀ a, (stepResult s).memRead a = s.memRead a := fun a =>
    congrArg (fun m => Memory.read m a) (stepResult_memory_of_not_sta (h.nostore s.PC))
  refine ⟨stepResult_fault_of_allExecutable h.executable h.nofault, fun a => ?_, fun a => ?_⟩
  · rw [hmem]
    exact h.executable a
  · rw [hmem]
    exact h.nostore a

theorem safeRun_of_storeFree (n : Nat) {s : State} (h : s.StoreFree) : SafeRun n s := by
  have hn : (stepResult^[n] s).StoreFree := Function.Iterate.rec State.StoreFree h (fun _ => storeFree_stepResult) n
  refine ⟨_, run_eq n s, fun hout => ?_⟩
  have hf := (stopOutcome_eq_illegalOpcode_iff _).1 hout
  simp [hn.nofault] at hf

/-! ### The obligations -/

/-- Settles O45: the view is kept by every step, and it says when a run stops and with which outcome. -/
theorem hiddenStateNeverSteers : Obligations.HiddenStateNeverSteers := fun n s u h =>
  ⟨_, _, run_eq n s, run_eq n u, sameProgramView_stopOutcome (sameProgramView_iterate n h),
    sameProgramView_stepsTaken n h, sameProgramView_iterate n h⟩

/-- Settles O26: PC has 4 bits, a step keeps a stop flag, and so a run does. -/
theorem stopFlagsAreMonotone : Obligations.StopFlagsAreMonotone := by
  refine ⟨fun s => Nat.le_of_lt_succ s.PC.isLt, fun s t h => step_keeps_stopFlags h,
    fun n s r h => ⟨fun hh => ?_, fun hf => ?_⟩⟩
  · exact runFrom_induct (P := fun s => s.halted = true) (fun _ _ hs hst => (step_keeps_stopFlags hst).1 hs) n 0 s r hh h
  · exact runFrom_induct (P := fun s => s.fault = true) (fun _ _ hs hst => (step_keeps_stopFlags hst).2 hs) n 0 s r hf h

/-- Settles O42, from the closed form of `run`. -/
theorem runReturnsWithinBudget : Obligations.RunReturnsWithinBudget := by
  refine fun n s => ⟨_, run_eq n s, stepsTaken_le n s, ?_, fun hout => ?_⟩
  · rw [coreRun_eq, iterate_stepsTaken]
  · exact stepsTaken_of_running ((stopOutcome_eq_exhausted_iff_running _).1 hout)

/-- Settles O43: the outcome is read off the final state's stop flags, and a stopped engine takes no step. -/
theorem runOutcomeSaysTheStopState : Obligations.RunOutcomeSaysTheStopState := by
  intro n s r h
  obtain rfl := eq_of_run h
  refine ⟨stopOutcome_eq_illegalOpcode_iff _, stopOutcome_eq_halted_iff _, stopOutcome_eq_exhausted_iff _, ?_⟩
  rintro (hh | hf | rfl)
  · exact ⟨stepsTaken_of_stopped (stopped_of_halted hh) n, iterate_stepResult_of_stopped (stopped_of_halted hh) n⟩
  · exact ⟨stepsTaken_of_stopped (stopped_of_fault hf) n, iterate_stepResult_of_stopped (stopped_of_fault hf) n⟩
  · exact ⟨rfl, rfl⟩

/-- Settles O44: the closed form of `run` splits, and what follows a stop adds nothing. -/
theorem runSplitsAnywhere : Obligations.RunSplitsAnywhere := by
  intro m n s r h
  obtain rfl := eq_of_run h
  refine ⟨fun hout => ?_, fun hout q hq => ?_⟩
  · have hstop : (stepResult^[m] s).stopped = true :=
      (Bool.not_eq_false _).mp (mt (stopOutcome_eq_exhausted_iff_running _).2 hout)
    rw [run_eq, stepsTaken_add, iterate_stepResult_add, iterate_stepResult_of_stopped hstop,
      stepsTaken_of_stopped hstop, Nat.add_zero]
  · obtain rfl := eq_of_run hq
    rw [run_eq, stepsTaken_add, iterate_stepResult_add,
      stepsTaken_of_running ((stopOutcome_eq_exhausted_iff_running _).1 hout)]

/-- Settles O46: each step writes the same byte into IR, so the engine runs on through the whole budget. -/
theorem selfJumpNeverHalts : Obligations.SelfJumpNeverHalts := by
  intro n s hh hf hd
  have hn := iterate_selfJump ((stopped_eq_false_iff s).2 ⟨hh, hf⟩) hd n
  have running : (stepResult^[n] s).stopped = false := by
    rw [hn, stopped_eq_false_iff]
    exact ⟨hh, hf⟩
  rw [run_eq, stepsTaken_of_running running, (stopOutcome_eq_exhausted_iff_running _).2 running, hn]
  rfl

/-- Settles O47: the fetched byte is an instruction, and only STA among them changes the memory. -/
theorem onlyStoresMakeIllegalBytes : Obligations.OnlyStoresMakeIllegalBytes := by
  intro s t h hf hst
  obtain rfl := eq_stepResult_of_step hst
  refine ⟨stepResult_fault_of_allExecutable h hf, fun hsta addr => ?_⟩
  rw [State.memRead, stepResult_memory_of_not_sta hsta]
  exact h addr

end Sys2Proof.Machine

/-! PROOFS. The host operations on a loaded engine and on one of several (60_exceptions.md R600, R620), and the boundary
(10_state.md R113). -/

namespace Sys2Proof.Machine

/-! ### A host operation's answer -/

theorem hostCall_unloaded {c : HostCall} (h : ∀ image, c ≠ .load image) : hostCall c .unloaded = .refused .notLoaded := by
  cases c with
  | load image => exact absurd rfl (h image)
  | step | run _ | readBoundary => rfl

/-- A loaded engine answers every host operation and stays loaded. -/
theorem exists_hostCall_loaded (c : HostCall) (s : State) : ∃ t r, hostCall c (.loaded s) = .next (.loaded t, r) := by
  cases c with
  | load image => exact ⟨_, _, hostCall_load image (.loaded s)⟩
  | step => exact ⟨_, _, hostCall_step_of_step (step_eq_stepResult s)⟩
  | run n => exact ⟨_, _, hostCall_run_of_run (run_eq n s)⟩
  | readBoundary => exact ⟨_, _, rfl⟩

theorem hostCallAt_of_length_le {j : Nat} {es : List Engine} (h : es.length ≤ j) (c : HostCall) :
    hostCallAt j c es = .refused .noSuchEngine := by
  rw [hostCallAt, List.getElem?_eq_none h]

/-- What an operation on one engine answers is in that engine's place afterwards. -/
theorem getElem?_set_of_getElem? {es : List Engine} {j : Nat} {e : Engine} (h : es[j]? = some e) (e' : Engine) :
    (es.set j e')[j]? = some e' :=
  List.getElem?_set_self (List.getElem?_eq_some_iff.1 h).1

/-! ### The boundary -/

/-- Two canonical memories that the boundary shows alike are one. -/
theorem memory_eq_of_memoryImage {m n : Memory} (hm : m.wf = true) (hn : n.wf = true)
    (h : memoryImage m = memoryImage n) : m = n :=
  Memory.ext_read hm hn fun a => by rw [← byte_memoryImage, h, byte_memoryImage]

/-- The boundary and IR are the whole state. -/
theorem eq_of_boundary {s u : State} (hs : Memory.wf s.memory = true) (hu : Memory.wf u.memory = true)
    (h : boundary s = boundary u) (hIR : s.IR = u.IR) : s = u := by
  obtain ⟨hA, hB, hOUT, hPC, hcarry, hzero, hhalted, hfault, himage⟩ := Boundary.mk.inj h
  have hmemory := memory_eq_of_memoryImage hs hu himage
  cases s
  cases u
  rw [State.mk.injEq]
  exact ⟨hA, hB, hIR, hPC, hOUT, hhalted, hcarry, hzero, hfault, hmemory⟩

/-! ### The obligations -/

/-- Settles O39: no operation but `load` has a case for an unloaded engine, and a loaded one's step and run always answer. -/
theorem refusedBeforeFirstLoad : Obligations.RefusedBeforeFirstLoad :=
  ⟨fun _ h => hostCall_unloaded h, exists_hostCall_loaded, fun _ _ h => hostCall_step_of_step h,
    fun _ _ _ h => hostCall_run_of_run h, fun _ => rfl⟩

/-- Settles O40: an operation that answers reads the engine at its index and replaces that one. -/
theorem instancesShareNothing : Obligations.InstancesShareNothing := by
  refine ⟨fun j c es fs r h => ?_, fun j c es e e' r he hc => hostCallAt_eq_next.2 ⟨e, e', he, hc, rfl⟩,
    fun j c es h => hostCallAt_of_length_le h c, fun j c es es' fs r hsame h => ?_⟩
  · obtain ⟨e, e', -, -, rfl⟩ := hostCallAt_eq_next.1 h
    exact ⟨List.length_set, fun k hk => List.getElem?_set_ne hk.symm⟩
  · obtain ⟨e, e', he, hc, rfl⟩ := hostCallAt_eq_next.1 h
    have he' : es'[j]? = some e := hsame.symm.trans he
    refine ⟨es'.set j e', hostCallAt_eq_next.2 ⟨e, e', he', hc, rfl⟩, ?_⟩
    rw [getElem?_set_of_getElem? he', getElem?_set_of_getElem? he]

/-- Settles O41: the boundary copies each field but IR, and its image determines a canonical memory. -/
theorem boundaryShowsAllButIr : Obligations.BoundaryShowsAllButIr :=
  ⟨fun _ _ => rfl, fun _ => ⟨rfl, rfl, rfl, rfl, rfl, rfl, rfl, rfl⟩, fun s addr => byte_memoryImage s.memory addr,
    fun _ _ hs hu h hIR => eq_of_boundary hs hu h hIR⟩

end Sys2Proof.Machine

/-! PROOFS. The assembler's mapper and lexical classes, and Stage 1 (45_assembler.md sections 1 to 3). -/

namespace Sys2Proof.Machine

/-! ### The mapper -/

theorem mnemonicName_injective : Function.Injective mnemonicName := by
  have h : ∀ m ∈ Mnemonic.all, ∀ n ∈ Mnemonic.all, mnemonicName m = mnemonicName n → m = n := by decide
  exact fun m n => h m m.mem_all n n.mem_all

theorem mnemonicOf_eq_some_iff (t : Token) (m : Mnemonic) :
    mnemonicOf t = some m ↔ t.map foldCase = mnemonicName m := by
  refine ⟨foldCase_of_mnemonicOf, fun h => ?_⟩
  cases hfind : mnemonicOf t with
  | some n => rw [mnemonicName_injective ((foldCase_of_mnemonicOf hfind).symm.trans h)]
  | none =>
    have hne := List.find?_eq_none.1 hfind m m.mem_all
    exact absurd (beq_iff_eq.2 h) hne

/-! ### The lexical classes as ranges of ASCII -/

theorem isLower_iff (c : Char) : c.isLower = true ↔ 'a' ≤ c ∧ c ≤ 'z' := by
  rw [Char.isLower, Bool.and_eq_true, decide_eq_true_iff, decide_eq_true_iff]
  rfl

theorem isUpper_iff (c : Char) : c.isUpper = true ↔ 'A' ≤ c ∧ c ≤ 'Z' := by
  rw [Char.isUpper, decide_eq_true_iff]
  rfl

theorem isDigit_iff (c : Char) : c.isDigit = true ↔ '0' ≤ c ∧ c ≤ '9' := by
  rw [Char.isDigit, Bool.and_eq_true, decide_eq_true_iff, decide_eq_true_iff]
  rfl

theorem isAlpha_iff (c : Char) : c.isAlpha = true ↔ 'A' ≤ c ∧ c ≤ 'Z' ∨ 'a' ≤ c ∧ c ≤ 'z' := by
  rw [Char.isAlpha, Bool.or_eq_true, isUpper_iff, isLower_iff]

theorem isAlphanum_iff (c : Char) :
    c.isAlphanum = true ↔ ('A' ≤ c ∧ c ≤ 'Z' ∨ 'a' ≤ c ∧ c ≤ 'z') ∨ '0' ≤ c ∧ c ≤ '9' := by
  rw [Char.isAlphanum, Bool.or_eq_true, isAlpha_iff, isDigit_iff]

theorem not_isDigit_of_isAlpha {c : Char} (h : c.isAlpha = true) : c.isDigit = false := by
  rw [isAlpha_iff] at h
  rw [← Bool.not_eq_true, isDigit_iff]
  rintro ⟨-, h9⟩
  obtain ⟨hA, -⟩ | ⟨ha, -⟩ := h
  · exact absurd (le_trans hA h9) (by decide)
  · exact absurd (le_trans ha h9) (by decide)

theorem foldCase_eq (c : Char) : foldCase c = if 'a' ≤ c ∧ c ≤ 'z' then Char.ofNat (c.toNat - 32) else c := by
  split <;> rename_i h
  · exact Char.toUpper_eq_of_isLower ((isLower_iff c).2 h)
  · exact Char.toUpper_eq_of_not_isLower (mt (isLower_iff c).1 h)

theorem isDecimal_iff (t : Token) : isDecimal t = true ↔ t ≠ [] ∧ ∀ c ∈ t, '0' ≤ c ∧ c ≤ '9' := by
  simp [isDecimal, isDigit_iff]

theorem startsWithDigit_iff (t : Token) : startsWithDigit t = true ↔ ∃ c cs, t = c :: cs ∧ '0' ≤ c ∧ c ≤ '9' := by
  cases t <;> simp [startsWithDigit, isDigit_iff]

theorem isIdentifier_iff (t : Token) :
    isIdentifier t = true ↔ ∃ c cs, t = c :: cs ∧ ('A' ≤ c ∧ c ≤ 'Z' ∨ 'a' ≤ c ∧ c ≤ 'z') ∧
      ∀ d ∈ cs, 'A' ≤ d ∧ d ≤ 'Z' ∨ 'a' ≤ d ∧ d ≤ 'z' ∨ '0' ≤ d ∧ d ≤ '9' ∨ d = '_' := by
  cases t with
  | nil => simp [isIdentifier]
  | cons c cs => simp [isIdentifier, isAlpha_iff, isAlphanum_iff, or_assoc]

theorem isSpace_iff (c : Char) : isSpace c = true ↔ c.toNat ∈ [0x20, 0x09, 0x0B, 0x0C, 0x0D] := by
  have key : ∀ d : Char, c = d ↔ c.toNat = d.toNat := fun d => Char.toNat_inj.symm
  simp [isSpace, key, or_assoc]

/-! ### Splitting a list at the elements of a class -/

/-- The pieces together are the elements outside the class. -/
theorem flatten_splitOnP {α : Type} (q : α → Bool) (xs : List α) :
    (xs.splitOnP q).flatten = xs.filter fun x => !q x := by
  induction xs with
  | nil => simp
  | cons a as ih =>
    rw [List.splitOnP_cons_eq_if_modifyHead]
    split <;> rename_i ha
    · simp [ih, ha]
    · obtain ⟨piece, pieces, hsplit⟩ := List.exists_cons_of_ne_nil (List.splitOnP_ne_nil q as)
      rw [hsplit] at ih ⊢
      rw [List.modifyHead_cons, List.flatten_cons, List.filter_cons_of_pos (by simpa using ha), ← ih]
      rfl

/-- There is one piece more than there are cuts. -/
theorem length_splitOn {α : Type} [BEq α] (a : α) (xs : List α) : (xs.splitOn a).length = xs.count a + 1 := by
  rw [List.splitOn_eq_splitOnP]
  induction xs with
  | nil => simp
  | cons x xs ih =>
    rw [List.splitOnP_cons_eq_if_modifyHead, List.count_cons]
    split <;> simp [ih]

/-! ### The tokens of a line -/

theorem ne_nil_of_mem_lineTokens {line : List Char} {t : Token} (h : t ∈ lineTokens line) : t ≠ [] := by
  simpa using (List.mem_filter.1 h).2

theorem stripComment_of_not_mem {line : List Char} (h : ';' ∉ line) : stripComment line = line := by
  rw [stripComment, List.takeWhile_eq_self_iff]
  intro c hc
  exact bne_iff_ne.2 fun heq => h (heq ▸ hc)

/-- Where no comment has begun, one begins after the line as it would by itself. -/
theorem stripComment_append {a : List Char} (ha : ';' ∉ a) (b : List Char) :
    stripComment (a ++ b) = a ++ stripComment b :=
  List.takeWhile_append_of_pos fun _ hc => bne_iff_ne.2 fun heq => ha (heq ▸ hc)

/-- What follows a comment's semicolon belongs to it. -/
theorem stripComment_append_of_mem {a : List Char} (ha : ';' ∈ a) (b : List Char) :
    stripComment (a ++ b) = stripComment a := by
  have hshort : (stripComment a).length ≠ a.length := fun hlen => by
    have hself : stripComment a = a := (List.takeWhile_prefix _).eq_of_length hlen
    exact bne_iff_ne.1 (List.takeWhile_eq_self_iff.1 hself _ ha) rfl
  exact List.takeWhile_append.trans (if_neg hshort)

theorem stripComment_semicolon (comment : List Char) : stripComment (';' :: comment) = [] := rfl

theorem ne_semicolon_of_isSpace {c : Char} (hc : isSpace c = true) : c ≠ ';' := by
  rintro rfl
  exact absurd hc (by decide)

/-- A whitespace character before the comment cuts the line in two. -/
theorem lineTokens_cut {a : List Char} (ha : ';' ∉ a) {c : Char} (hc : isSpace c = true) (b : List Char) :
    lineTokens (a ++ c :: b) = lineTokens a ++ lineTokens b := by
  have hstrip : stripComment (c :: b) = c :: stripComment b :=
    List.takeWhile_cons_of_pos (bne_iff_ne.2 (ne_semicolon_of_isSpace hc))
  rw [lineTokens, stripComment_append ha, hstrip, List.splitOnP_append_cons _ _ hc, List.filter_append]
  rw [lineTokens, lineTokens, stripComment_of_not_mem ha]

theorem lineTokens_append_comment (line comment : List Char) :
    lineTokens (line ++ ';' :: comment) = lineTokens line := by
  by_cases h : ';' ∈ line
  · rw [lineTokens, stripComment_append_of_mem h, lineTokens]
  · rw [lineTokens, stripComment_append h, stripComment_semicolon, List.append_nil, lineTokens, stripComment_of_not_mem h]

theorem lineTokens_append_cr (line : List Char) : lineTokens (line ++ ['\r']) = lineTokens line := by
  by_cases h : ';' ∈ line
  · rw [lineTokens, stripComment_append_of_mem h, lineTokens]
  · rw [lineTokens_cut h (by decide)]
    exact List.append_nil _

theorem flatten_lineTokens (line : List Char) :
    (lineTokens line).flatten = (line.takeWhile fun c => c != ';').filter fun c => !isSpace c := by
  rw [lineTokens, List.flatten_filter_not_isEmpty, flatten_splitOnP]
  rfl

/-- Every character of a token is neither whitespace nor a semicolon: the tokens together hold no other. -/
theorem lineTokens_chars {line : List Char} {t : Token} (h : t ∈ lineTokens line) :
    ∀ c ∈ t, isSpace c = false ∧ c ≠ ';' := by
  intro c hc
  have hflat : c ∈ (lineTokens line).flatten := List.mem_flatten_of_mem h hc
  rw [flatten_lineTokens, List.mem_filter, Bool.not_eq_true'] at hflat
  obtain ⟨hline, hspace⟩ := hflat
  exact ⟨hspace, bne_iff_ne.1 (List.mem_takeWhile_imp (p := fun c => c != ';') hline)⟩

/-- A non-empty run without whitespace and semicolon is one token. -/
theorem lineTokens_of_run {t : List Char} (hne : t ≠ []) (ht : ∀ c ∈ t, isSpace c = false ∧ c ≠ ';') :
    lineTokens t = [t] := by
  have hstrip : stripComment t = t := stripComment_of_not_mem fun hmem => (ht _ hmem).2 rfl
  rw [lineTokens, hstrip, List.splitOnP_eq_singleton fun c hc => (ht c hc).1]
  simp [hne]

/-! ### The obligations -/

/-- Settles O49: the mnemonics have different names, and folding is upper-casing a-z. -/
theorem mnemonicsMatchCaseFolded : Obligations.MnemonicsMatchCaseFolded := ⟨mnemonicOf_eq_some_iff, foldCase_eq⟩

/-- Settles O50: a comment ends where its line does, and CR is whitespace, which cuts off an empty rest. -/
theorem commentsAndCrIgnored : Obligations.CommentsAndCrIgnored := fun line comment =>
  ⟨lineTokens_append_comment line comment, lineTokens_append_cr line⟩

/-- Settles O51: the tokens are the pieces between whitespace, the lines the pieces between LFs. -/
theorem tokensOfALine : Obligations.TokensOfALine := by
  refine ⟨fun line t h => ⟨ne_nil_of_mem_lineTokens h, lineTokens_chars h⟩, flatten_lineTokens,
    fun t hne ht => lineTokens_of_run hne ht, fun a b c ha hc => lineTokens_cut ha hc b, isSpace_iff,
    fun text => ⟨?_, ?_⟩⟩
  · rw [← length_splitOn, ← List.zipIdx_map_snd, tokenLines, List.map_map]
    rfl
  · conv_rhs => rw [← List.zipIdx_map_fst 1 (text.splitOn '\n')]
    rw [tokenLines, List.map_map, List.map_map]
    rfl

end Sys2Proof.Machine

/-! PROOFS. The assembler's Stage 2 (45_assembler.md section 4): label definitions, the label table, and the first line that
fails. -/

namespace Sys2Proof.Machine

/-! ### Label definitions -/

theorem isLabelDef_iff (t : Token) : isLabelDef t = true ↔ ∃ name, name ≠ [] ∧ t = name ++ [':'] := by
  rw [isLabelDef, Bool.and_eq_true, decide_eq_true_iff, beq_iff_eq, List.getLast?_eq_some_iff]
  constructor
  · rintro ⟨hlen, name, rfl⟩
    exact ⟨name, by rintro rfl; simp at hlen, rfl⟩
  · rintro ⟨name, hne, rfl⟩
    exact ⟨by simpa using List.length_pos_iff.2 hne, name, rfl⟩

theorem labelName_append_colon (name : Token) : labelName (name ++ [':']) = name :=
  List.dropLast_concat

/-- A label definition is no mnemonic, so Stage 2 tests its name (R515). -/
theorem mnemonicOf_of_isLabelDef {t : Token} (hl : isLabelDef t = true) : mnemonicOf t = none := by
  cases hm : mnemonicOf t with
  | none => rfl
  | some m =>
    rw [isLabelDef_eq_false_of_mnemonicOf hm] at hl
    cases hl

theorem lookup_isSome_iff_mem (labels : List (Token × Nat)) (name : Token) :
    (labels.lookup name).isSome = true ↔ name ∈ labels.map Prod.fst := by
  simp only [List.lookup_isSome_iff, List.mem_map, beq_iff_eq, eq_comm (a := name)]

section
variable {t : Token} (hl : isLabelDef t = true) (n : Nat) (rest : List Token) (p : ParseState)
include hl

theorem parseLine_label_invalidName (hi : isIdentifier (labelName t) = false) :
    parseLine n (t :: rest) p = .error ⟨n, .invalidLabelName⟩ := by
  rw [parseLine.eq_def]
  simp [mnemonicOf_of_isLabelDef hl, hl, hi]

theorem parseLine_label_duplicate (hi : isIdentifier (labelName t) = true) (hd : labelName t ∈ p.labels.map Prod.fst) :
    parseLine n (t :: rest) p = .error ⟨n, .duplicateLabel⟩ := by
  rw [parseLine.eq_def]
  simp only [mnemonicOf_of_isLabelDef hl, hl, hi, (lookup_isSome_iff_mem _ _).2 hd, Bool.not_true, Bool.false_eq_true,
    if_true, if_false]

theorem parseLine_label_new (hi : isIdentifier (labelName t) = true) (hd : labelName t ∉ p.labels.map Prod.fst) :
    parseLine n (t :: rest) p = parseLine n rest (p.addLabel (labelName t)) := by
  rw [parseLine.eq_def]
  simp only [mnemonicOf_of_isLabelDef hl, hl, hi, mt (lookup_isSome_iff_mem _ _).1 hd, Bool.not_true,
    Bool.false_eq_true, if_true, if_false]

end

/-! ### The label table -/

/-- What Stage 2 keeps of the instructions and the label table it builds. -/
structure ParseState.Sound (p : ParseState) : Prop where
  distinct : (p.labels.map Prod.fst).Nodup
  inRange : ∀ l ∈ p.labels, isIdentifier l.1 = true ∧ l.2 ≤ p.instrs.length
  operands : ∀ i ∈ p.instrs, OperandPresent i

theorem sound_addInstr {p : ParseState} {m : Mnemonic} {o : Option Token} {n : Nat} (h : p.Sound)
    (ho : OperandPresent ⟨m, o, n⟩) : (p.addInstr m o n).Sound := by
  refine ⟨h.distinct, fun l hl => ?_, fun i hi => ?_⟩
  · obtain ⟨hid, hle⟩ := h.inRange l hl
    exact ⟨hid, hle.trans (by simp)⟩
  · obtain hi | rfl : i ∈ p.instrs ∨ i = ⟨m, o, n⟩ := by simpa using hi
    · exact h.operands i hi
    · exact ho

theorem sound_addLabel {p : ParseState} {name : Token} (h : p.Sound) (hid : isIdentifier name = true)
    (hnew : p.labels.lookup name = none) : (p.addLabel name).Sound := by
  have hfresh : name ∉ p.labels.map Prod.fst := by
    rw [← lookup_isSome_iff_mem, hnew]
    exact Bool.false_ne_true
  refine ⟨?_, fun l hl => ?_, h.operands⟩
  · rw [addLabel_labels, List.map_append]
    exact h.distinct.append (List.nodup_singleton name) (List.disjoint_singleton.2 hfresh)
  · obtain hl | rfl : l ∈ p.labels ∨ l = (name, p.instrs.length) := by simpa using hl
    · exact h.inRange l hl
    · exact ⟨hid, Nat.le_refl _⟩

theorem sound_of_parse {text : List Char} {p : ParseState} (h : parse text = .ok p) : p.Sound :=
  parseLines_induct (P := ParseState.Sound) (fun _ _ _ _ hp ho => sound_addInstr hp ho)
    (fun _ _ hp hid hnew => sound_addLabel hp hid hnew) (tokenLines text) ⟨[], []⟩ p ⟨List.nodup_nil, nofun, nofun⟩ h

theorem operand_eq_none_iff {i : SourceInstr} (h : OperandPresent i) : i.operand = none ↔ i.operandKind = .none := by
  rw [← Option.isNone_iff_eq_none, ← Option.not_isSome, h, Bool.not_eq_true', bne_eq_false_iff_eq]
  rfl

/-! ### The first line that fails -/

/-- Stage 2 on the lines is the scan of a line, carried through them until one fails. -/
theorem parseLines_eq_foldlM (ls : List (Nat × List Token)) (p : ParseState) :
    parseLines ls p = ls.foldlM (fun p l => parseLine l.1 l.2 p) p := by
  induction ls generalizing p with
  | nil => rfl
  | cons l ls ih =>
    rw [parseLines, List.foldlM_cons]
    cases parseLine l.1 l.2 p with
    | ok q => exact ih q
    | error d => rfl

/-- A diagnostic of Stage 2 carries the number of the line that was scanned (R546). -/
theorem line_of_parseLine_error {n : Nat} {ts : List Token} {p : ParseState} {d : Diagnostic}
    (h : parseLine n ts p = .error d) : d.line = n := by
  induction ts, p using parseLine.induct n with
  | case1 p => cases h
  | case2 t rest p m hm hk ih =>
    rw [parseLine_mnemonic_noOperand hm hk] at h
    exact ih h
  | case3 t p m hm hk | case5 t p m hm hk =>
    rw [parseLine_mnemonic_missingOperand hm (by simp [hk])] at h
    exact (Except.error.inj h) ▸ rfl
  | case4 t p m hm hk o rest ih | case6 t p m hm hk o rest ih =>
    rw [parseLine_mnemonic_operand hm (by simp [hk])] at h
    exact ih h
  | case7 t rest p hm hl hi =>
    rw [parseLine_label_invalidName hl n rest p (by simpa using hi)] at h
    exact (Except.error.inj h) ▸ rfl
  | case8 t rest p hm hl hi hd =>
    rw [parseLine_label_duplicate hl n rest p (by simpa using hi) ((lookup_isSome_iff_mem _ _).1 hd)] at h
    exact (Except.error.inj h) ▸ rfl
  | case9 t rest p hm hl hi hd ih =>
    rw [parseLine_label_new hl n rest p (by simpa using hi) (mt (lookup_isSome_iff_mem _ _).2 hd)] at h
    exact ih h
  | case10 t rest p hm hl =>
    rw [parseLine_otherToken hm (Bool.eq_false_iff.2 hl)] at h
    exact (Except.error.inj h) ▸ rfl

theorem parse_eq_foldlM (text : List Char) :
    parse text = (tokenLines text).foldlM (fun p l => parseLine l.1 l.2 p) ⟨[], []⟩ :=
  parseLines_eq_foldlM (tokenLines text) ⟨[], []⟩

/-- The lines before a failing one pass, so its diagnostic is Stage 2's. -/
theorem parse_of_failing_line {text : List Char} {front back : List (Nat × List Token)} {l : Nat × List Token}
    {p : ParseState} {d : Diagnostic} (hlines : tokenLines text = front ++ l :: back)
    (hfront : front.foldlM (fun p l => parseLine l.1 l.2 p) ⟨[], []⟩ = .ok p) (hl : parseLine l.1 l.2 p = .error d) :
    parse text = .error d := by
  rw [parse_eq_foldlM, hlines, List.foldlM_append, hfront]
  show (l :: back).foldlM (fun p l => parseLine l.1 l.2 p) p = .error d
  rw [List.foldlM_cons, hl]
  rfl

/-! ### The obligations -/

/-- Settles O53, one equation of Stage 2 for each of the three cases. -/
theorem parseOfLabelDefinition : Obligations.ParseOfLabelDefinition := by
  refine ⟨isLabelDef_iff, fun n name rest p hne => ?_⟩
  have hl : isLabelDef (name ++ [':']) = true := (isLabelDef_iff _).2 ⟨name, hne, rfl⟩
  have invalid := parseLine_label_invalidName hl n rest p
  have duplicate := parseLine_label_duplicate hl n rest p
  have new := parseLine_label_new hl n rest p
  rw [labelName_append_colon] at invalid duplicate new
  exact ⟨invalid, duplicate, new⟩

/-- Settles O55: adding an instruction or a new label keeps what Stage 2 keeps. -/
theorem labelTableIsSound : Obligations.LabelTableIsSound := fun _ _ h =>
  ⟨(sound_of_parse h).distinct, (sound_of_parse h).inRange,
    fun i hi => operand_eq_none_iff ((sound_of_parse h).operands i hi)⟩

end Sys2Proof.Machine

/-! PROOFS. The assembler's Stage 3 (45_assembler.md sections 5 to 8): the address operand, the packed bytes of an image, the
first instruction that fails, and what the engine does with an assembled image. -/

namespace Sys2Proof.Machine

/-! ### The address operand -/

/-- Each further digit is the new units digit (R504). -/
theorem decimalValue_append_digit (t : Token) (c : Char) :
    decimalValue (t ++ [c]) = 10 * decimalValue t + (c.toNat - 48) :=
  List.foldl_append

theorem startsWithDigit_of_isDecimal {t : Token} (h : isDecimal t = true) : startsWithDigit t = true := by
  cases t with
  | nil => cases h
  | cons c cs =>
    rw [isDecimal, Bool.and_eq_true, List.all_cons, Bool.and_eq_true] at h
    exact h.2.1

theorem not_startsWithDigit_of_isIdentifier {t : Token} (h : isIdentifier t = true) : startsWithDigit t = false := by
  cases t with
  | nil => rfl
  | cons c cs =>
    rw [isIdentifier, Bool.and_eq_true] at h
    exact not_isDigit_of_isAlpha h.1

section
variable (labels : List (Token × Nat)) {t : Token}

theorem operandNumber_address_decimal (h : isDecimal t = true) :
    operandNumber labels .addressOrLabel (some t) = .ok (decimalValue t) := by
  simp [operandNumber, startsWithDigit_of_isDecimal h, h]

theorem operandNumber_address_invalidLiteral (hd : startsWithDigit t = true) (h : isDecimal t = false) :
    operandNumber labels .addressOrLabel (some t) = .error .invalidLiteral := by
  simp [operandNumber, hd, h]

theorem operandNumber_address_invalidLabelName (hd : startsWithDigit t = false) (h : isIdentifier t = false) :
    operandNumber labels .addressOrLabel (some t) = .error .invalidLabelName := by
  simp [operandNumber, hd, h]

theorem operandNumber_address_undefinedLabel (h : isIdentifier t = true) (hl : labels.lookup t = none) :
    operandNumber labels .addressOrLabel (some t) = .error .undefinedLabel := by
  simp [operandNumber, not_startsWithDigit_of_isIdentifier h, h, hl]

theorem operandNumber_address_label (h : isIdentifier t = true) {v : Nat} (hl : labels.lookup t = some v) :
    operandNumber labels .addressOrLabel (some t) = .ok v := by
  simp [operandNumber, not_startsWithDigit_of_isIdentifier h, h, hl]

end

/-- An operand field holds the operand's number, with nothing cut off (R531, R532). -/
theorem operandNumber_of_resolveOperand {labels : List (Token × Nat)} {kind : OperandKind} {o : Option Token} {v : Nibble}
    (h : resolveOperand labels kind o = .ok v) : operandNumber labels kind o = .ok v.toNat := by
  cases hn : operandNumber labels kind o with
  | error e =>
    rw [resolveOperand_error hn] at h
    cases h
  | ok n =>
    obtain hlt | hle := Nat.lt_or_ge 15 n
    · rw [resolveOperand_outOfRange hn hlt] at h
      cases h
    · obtain ⟨k, hk, rfl⟩ := resolveOperand_inRange hn hle
      rw [h] at hk
      rw [Except.ok.inj hk]

/-- A label operand that resolves is defined, and its field is the label's value. -/
theorem lookup_of_resolveOperand {labels : List (Token × Nat)} {t : Token} {v : Nibble} (hid : isIdentifier t = true)
    (h : resolveOperand labels .addressOrLabel (some t) = .ok v) : labels.lookup t = some v.toNat := by
  have hnum := operandNumber_of_resolveOperand h
  cases hl : labels.lookup t with
  | none =>
    rw [operandNumber_address_undefinedLabel labels hid hl] at hnum
    cases hnum
  | some n =>
    rw [operandNumber_address_label labels hid hl] at hnum
    exact congrArg some (Except.ok.inj hnum)

/-! ### One instruction of Stage 3 -/

section
variable {labels : List (Token × Nat)} {i : SourceInstr} {rest : List SourceInstr} {j : Nat} {image : Image}

theorem encodeInstrs_resolved (hj : j < memoryBytes) {v : Nibble}
    (hv : resolveOperand labels i.operandKind i.operand = .ok v) :
    encodeInstrs labels (i :: rest) j image =
      encodeInstrs labels rest (j + 1) (image.set j (packByte i.opcode v) hj) := by
  rw [encodeInstrs, dif_pos hj, hv]

theorem encodeInstrs_operandError (hj : j < memoryBytes) {e : ErrorKind}
    (he : resolveOperand labels i.operandKind i.operand = .error e) :
    encodeInstrs labels (i :: rest) j image = .error ⟨i.line, e⟩ := by
  rw [encodeInstrs, dif_pos hj, he]

theorem encodeInstrs_tooLarge (hj : ¬ j < memoryBytes) :
    encodeInstrs labels (i :: rest) j image = .error ⟨i.line, .programTooLarge⟩ := by
  rw [encodeInstrs, dif_neg hj]

/-- Where Stage 3 succeeds, its first instruction is inside the memory, and its operand resolves. -/
theorem encodeInstrs_cons_ok {image' : Image} (h : encodeInstrs labels (i :: rest) j image = .ok image') :
    ∃ (hj : j < memoryBytes) (v : Nibble), resolveOperand labels i.operandKind i.operand = .ok v ∧
      encodeInstrs labels rest (j + 1) (image.set j (packByte i.opcode v) hj) = .ok image' := by
  by_cases hj : j < memoryBytes
  · cases hr : resolveOperand labels i.operandKind i.operand with
    | error e =>
      rw [encodeInstrs_operandError hj hr] at h
      cases h
    | ok v => exact ⟨hj, v, rfl, encodeInstrs_resolved hj hr ▸ h⟩
  · rw [encodeInstrs_tooLarge hj] at h
    cases h

end

/-! ### A whole program in Stage 3 -/

section
variable {labels : List (Token × Nat)} {is : List SourceInstr} {j : Nat} {image image' : Image}

/-- A program that Stage 3 encodes fits into the memory (R525). -/
theorem length_le_of_encodeInstrs (h : encodeInstrs labels is j image = .ok image') (hj : j ≤ memoryBytes) :
    j + is.length ≤ memoryBytes := by
  induction is generalizing j image with
  | nil => exact hj
  | cons i rest ih =>
    obtain ⟨hlt, v, -, hrest⟩ := encodeInstrs_cons_ok h
    have := ih hrest hlt
    rw [List.length_cons]
    omega

/-- Stage 3 leaves the bytes before its first instruction and after its last one. -/
theorem getElem?_encodeInstrs_outside (h : encodeInstrs labels is j image = .ok image') {k : Nat}
    (hk : k < j ∨ j + is.length ≤ k) : image'[k]? = image[k]? := by
  induction is generalizing j image with
  | nil => rw [Except.ok.inj h]
  | cons i rest ih =>
    obtain ⟨hj, v, -, hrest⟩ := encodeInstrs_cons_ok h
    rw [List.length_cons] at hk
    rw [ih hrest (by omega), Vector.getElem?_set_ne hj (by omega)]

/-- Stage 3 packs the instruction of index `k` into the byte `k` after the first one (R540). -/
theorem getElem?_encodeInstrs (h : encodeInstrs labels is j image = .ok image') {k : Nat} {i : SourceInstr}
    (hi : is[k]? = some i) : ∃ v, resolveOperand labels i.operandKind i.operand = .ok v ∧
      image'[j + k]? = some (packByte i.opcode v) := by
  induction is generalizing j k image with
  | nil => simp at hi
  | cons first rest ih =>
    obtain ⟨hj, v, hv, hrest⟩ := encodeInstrs_cons_ok h
    cases k with
    | zero =>
      obtain rfl : first = i := by simpa using hi
      refine ⟨v, hv, ?_⟩
      rw [getElem?_encodeInstrs_outside hrest (by omega), Nat.add_zero, Vector.getElem?_set_self hj]
    | succ k =>
      rw [List.getElem?_cons_succ] at hi
      have index : j + (k + 1) = j + 1 + k := by omega
      rw [index]
      exact ih hrest hi

/-- Stage 3 runs through the instructions that resolve (R546: it stops at the first one that does not). -/
theorem encodeInstrs_append {front : List SourceInstr} (rest : List SourceInstr)
    (hfront : ∀ k ∈ front, ∃ v, resolveOperand labels k.operandKind k.operand = .ok v)
    (hlen : j + front.length ≤ memoryBytes) :
    ∃ image', encodeInstrs labels (front ++ rest) j image = encodeInstrs labels rest (j + front.length) image' := by
  induction front generalizing j image with
  | nil => exact ⟨image, rfl⟩
  | cons i front ih =>
    rw [List.length_cons] at hlen
    obtain ⟨v, hv⟩ := hfront i (List.mem_cons_self ..)
    rw [List.cons_append, encodeInstrs_resolved (by omega) hv, List.length_cons, Nat.add_comm front.length,
      ← Nat.add_assoc]
    exact ih (fun k hk => hfront k (List.mem_cons_of_mem _ hk)) (by omega)

end

/-! ### `assemble` -/

/-- Stage 2 comes before Stage 3. -/
theorem assemble_of_parse_error {text : List Char} {d : Diagnostic} (h : parse text = .error d) :
    assemble text = .error d := by
  rw [assemble, h]

theorem assemble_of_parse {text : List Char} {p : ParseState} (h : parse text = .ok p) :
    assemble text = encodeInstrs p.labels p.instrs 0 zeroImage := by
  rw [assemble, h]

theorem exists_parse_of_assemble {text : List Char} {image : Image} (h : assemble text = .ok image) :
    ∃ p, parse text = .ok p := by
  cases hp : parse text with
  | ok p => exact ⟨p, rfl⟩
  | error d =>
    rw [assemble_of_parse_error hp] at h
    cases h

section
variable {text : List Char} {image : Image} {p : ParseState}

theorem length_le_of_assemble (h : assemble text = .ok image) (hp : parse text = .ok p) : p.instrs.length ≤ 16 := by
  have := length_le_of_encodeInstrs (assemble_of_parse hp ▸ h) (Nat.zero_le memoryBytes)
  rwa [Nat.zero_add] at this

/-- Byte `j` of an assembled image is instruction `j`'s opcode and its resolved operand. -/
theorem byte_of_assemble (h : assemble text = .ok image) (hp : parse text = .ok p) {j : Nat} {i : SourceInstr}
    (hi : p.instrs[j]? = some i) : ∃ v, resolveOperand p.labels i.operandKind i.operand = .ok v ∧
      image[j]? = some (opcodeOf i.mnemonic ++ v) := by
  obtain ⟨v, hv, hb⟩ := getElem?_encodeInstrs (assemble_of_parse hp ▸ h) hi
  rw [Nat.zero_add, packByte_eq_append] at hb
  exact ⟨v, hv, hb⟩

/-- The bytes after the program are the zero image's (decision D18). -/
theorem padding_of_assemble (h : assemble text = .ok image) (hp : parse text = .ok p) {j : Nat}
    (hlen : p.instrs.length ≤ j) (hj : j < 16) : image[j]? = some 0x00#8 := by
  rw [getElem?_encodeInstrs_outside (assemble_of_parse hp ▸ h) (Or.inr (by rwa [Nat.zero_add])), zeroImage]
  exact Vector.getElem?_replicate_of_lt hj

/-- Every byte of an assembled image is an instruction: one of the program's, or the padding's NOP. -/
theorem allExecutable_of_assemble (h : assemble text = .ok image) : (load image).AllExecutable := by
  intro addr
  rw [load_memRead]
  obtain ⟨p, hp⟩ := exists_parse_of_assemble h
  have hbyte : image[addr.toNat]? = some (image.byte addr) := Vector.getElem?_eq_getElem addr.isLt
  obtain hlt | hle := Nat.lt_or_ge addr.toNat p.instrs.length
  · obtain ⟨v, -, hb⟩ := byte_of_assemble h hp (List.getElem?_eq_getElem hlt)
    rw [Option.some.inj (hbyte.symm.trans hb)]
    exact ⟨_, decode_append _ v⟩
  · rw [Option.some.inj (hbyte.symm.trans (padding_of_assemble h hp hle addr.isLt))]
    exact ⟨_, decode_packByte .nop 0x0#4⟩

/-- The byte of an instruction whose operand is a label holds the label's value. -/
theorem label_byte_of_assemble (h : assemble text = .ok image) (hp : parse text = .ok p) {j : Nat} {i : SourceInstr}
    {t : Token} (hi : p.instrs[j]? = some i) (hk : i.operandKind = .addressOrLabel) (ho : i.operand = some t)
    (hid : isIdentifier t = true) :
    ∃ v : Nibble, p.labels.lookup t = some v.toNat ∧ image[j]? = some (opcodeOf i.mnemonic ++ v) := by
  obtain ⟨v, hv, hb⟩ := byte_of_assemble h hp hi
  rw [hk, ho] at hv
  exact ⟨v, lookup_of_resolveOperand hid hv, hb⟩

/-- Where the instructions before one resolve, Stage 3 comes to that one. -/
theorem assemble_reaches (hp : parse text = .ok p) {front rest : List SourceInstr} (hsplit : p.instrs = front ++ rest)
    (hfront : ∀ k ∈ front, ∃ v, resolveOperand p.labels k.operandKind k.operand = .ok v) (hlen : front.length ≤ 16) :
    ∃ image', assemble text = encodeInstrs p.labels rest front.length image' := by
  obtain ⟨image', h⟩ := encodeInstrs_append (j := 0) (image := zeroImage) rest hfront (by rwa [Nat.zero_add])
  rw [Nat.zero_add] at h
  exact ⟨image', by rw [assemble_of_parse hp, hsplit, h]⟩

end

/-! ### The obligations -/

/-- Settles O58: Stage 3 packs each instruction at its index and leaves the rest of the zero image, and decoding a packed byte
gives its mnemonic and operand back. -/
theorem assembledImageDecodesBack : Obligations.AssembledImageDecodesBack := by
  intro text image h
  obtain ⟨p, hp⟩ := exists_parse_of_assemble h
  refine ⟨p, hp, length_le_of_assemble h hp, fun j i hi => ?_, fun j hlen hj => padding_of_assemble h hp hlen hj⟩
  obtain ⟨v, hv, hb⟩ := byte_of_assemble h hp hi
  exact ⟨v, _, operandNumber_of_resolveOperand hv, hb, rfl, decode_append i.mnemonic v⟩

/-- Settles O48: an assembled image's bytes are instructions, and without an STA among them no step changes that. -/
theorem assembledStoreFreeImagesRunSafely : Obligations.AssembledStoreFreeImagesRunSafely := fun _ image h =>
  ⟨allExecutable_of_assemble h, fun hsta n =>
    safeRun_of_storeFree n ⟨load_fault image, allExecutable_of_assemble h, hsta⟩⟩

/-- Settles O57, from the classes' characters and one equation of Stage 3 for each outcome. -/
theorem addressOperandRule : Obligations.AddressOperandRule := by
  refine ⟨isDecimal_iff, rfl, decimalValue_append_digit, startsWithDigit_iff, isIdentifier_iff, fun labels t =>
    ⟨fun hd h => resolveOperand_error (operandNumber_address_invalidLiteral labels hd h),
      fun hd h => resolveOperand_error (operandNumber_address_invalidLabelName labels hd h),
      fun h hl => resolveOperand_error (operandNumber_address_undefinedLabel labels h hl), fun n hn => ?_⟩⟩
  have hnum : operandNumber labels .addressOrLabel (some t) = .ok n := by
    obtain ⟨hdec, rfl⟩ | ⟨hid, hl⟩ := hn
    · exact operandNumber_address_decimal labels hdec
    · exact operandNumber_address_label labels hid hl
  exact ⟨resolveOperand_outOfRange hnum, resolveOperand_inRange hnum⟩

/-- Settles O59: the byte of a label operand is made of the mnemonic's opcode and the label's value alone. -/
theorem forwardReferencesEncodeAlike : Obligations.ForwardReferencesEncodeAlike := by
  intro text text' image image' p p' j j' i i' t t' h h' hp hp' hi hi' hm hk ho ho' hid hid' hl
  have hk' : i'.operandKind = .addressOrLabel := by rw [← hk, SourceInstr.operandKind, SourceInstr.operandKind, hm]
  obtain ⟨v, hv, hb⟩ := label_byte_of_assemble h hp hi hk ho hid
  obtain ⟨v', hv', hb'⟩ := label_byte_of_assemble h' hp' hi' hk' ho' hid'
  have hvv : v = v' := BitVec.eq_of_toNat_eq (Option.some.inj (hv.symm.trans (hl.trans hv')))
  refine ⟨by rw [hb, hb', hm, hvv], v.toNat, hv, Nat.le_of_lt_succ v.isLt, ?_⟩
  rw [BitVec.ofNat_toNat, BitVec.setWidth_eq, hb]

/-- Settles O60: each stage is carried through what passes and ends at the first that fails. -/
theorem firstStageThreeFailure : Obligations.FirstStageThreeFailure := by
  refine ⟨fun _ _ => rfl, parse_eq_foldlM,
    fun text front back l p d hlines hfront hl => ⟨parse_of_failing_line hlines hfront hl, line_of_parseLine_error hl⟩,
    fun text d h => assemble_of_parse_error h, fun text p hp =>
      ⟨fun front back i hsplit hfront => ⟨fun hlen => ?_, fun hlen e he => ?_⟩, fun hlen => ?_,
        fun hlen hall => ?_⟩⟩
  · obtain ⟨image', h⟩ := assemble_reaches hp hsplit hfront hlen.le
    rw [h, encodeInstrs_tooLarge hlen.not_lt]
  · obtain ⟨image', h⟩ := assemble_reaches hp hsplit hfront hlen.le
    rw [h, encodeInstrs_operandError hlen he]
  · cases h : assemble text with
    | error d => exact ⟨d, rfl⟩
    | ok image => exact absurd (length_le_of_assemble h hp) (by omega)
  · obtain ⟨image', h⟩ := assemble_reaches hp (List.append_nil _).symm hall hlen
    exact ⟨image', h⟩

end Sys2Proof.Machine
